-- ==== Sys2Proof/Word.lean ====
section
/-! DEFINITION. The byte and the word of the core (spec/00_scope.md R6, R7). -/

namespace Sys2Proof

/-- A byte is 8 bits (R7). -/
abbrev Byte := BitVec 8

/-- A word is 16 bits (R7): the width `XLEN` of a register, of a word and of an operand (R6). -/
abbrev Word := BitVec 16

end Sys2Proof
end

