-- ==== Sys2Proof/Machine/Flags.lean ====
section
/-! DEFINITION. Arithmetic results. There are no flags and no condition codes (spec/10_state.md R32);
the one arithmetic result of the core is the sum of two words modulo 65536, its carry lost
(spec/42_arithmetic.md R150, R151). -/

namespace Sys2Proof.Machine

/-- `trunc16(v1 + v2)`: the exact sum of the unsigned values, then narrowed (R150). -/
def sum16 (v1 v2 : Word) : Word := BitVec.ofNat 16 (v1.toNat + v2.toNat)

end Sys2Proof.Machine
end

