-- ==== Sys2Proof/Config.lean ====
section
/-! DEFINITION. The parameters of the core (spec/00_scope.md R6) and the constants of the reference
instance (spec/10_state.md R22). No parameter is a free value: each is an argument of `State.construct`. -/

namespace Sys2Proof

/-- What opcode 0x01 does (30_encoding.md R99): `halt` is the spec's default, `invalid` the
reproduced baseline in which 0x01 is undecoded. -/
inductive HltMode where
  | halt
  | invalid
deriving DecidableEq, Repr

/-- `MEM_SIZE`: the number of bytes of the Addressable Memory, from 1 to 65536 (R6, R50, D5). -/
abbrev MemSize := { n : Nat // 1 ≤ n ∧ n ≤ 65536 }

/-- What is fixed at construction and never changes afterwards (R6, R182). -/
structure Config where
  memSize : MemSize
  hltMode : HltMode
deriving DecidableEq, Repr

/-- The parameters `State.reset` is built with. `HLT_MODE = halt` is the spec's default (R6).
`MEM_SIZE = 65536` is a DESIGN CHOICE: the spec leaves the size open (R6, D5) and its test vectors
use 65536 unless they say otherwise (log entry 1). -/
def Config.reference : Config := ⟨⟨65536, by decide⟩, .halt⟩

/-- `REG_NAMES` of the reference instance, in order (10_state.md R22). -/
def Config.regNames : List String := ["ip", "acr", "r1", "r2", "r3", "r4"]

/-- `REG_BYTES = 2 × REG_COUNT`: the size of the register backing buffer (R6). -/
def Config.regBytes : Nat := 12

/-- `REG_INIT`: what a register other than `ip` holds after construction (10_state.md R41: the
spec's decision D3; log entry 2). -/
def Config.regInit : Word := 0x0000#16

/-- `MEM_INIT`: what a byte of memory that nothing has loaded or written reads as
(10_state.md R41: the spec's decision D4; log entry 3). -/
def Config.memInit : Byte := 0x00#8

end Sys2Proof
end

