-- ==== Sys2Proof/Syntax.lean ====
section
/-! DEFINITION. The instructions: one constructor for each row of spec/opcode_table.json, which is
the decode table of spec/30_encoding.md R97. -/

namespace Sys2Proof

/-- An instruction with its operand words. An operand is the 16-bit word of the instruction stream,
used as it stands (R93). A word that names no register or no memory is still an operand: "the
operands are only numbers until they are used" (40_engine.md R124). -/
inductive Instr where
  /-- 0x00 `NOP` (41_control.md R140). -/
  | nop
  /-- 0x01 `HLT` (41_control.md R141, R142). -/
  | hlt
  /-- 0x02 `ADD reg1 reg2` (42_arithmetic.md R150). -/
  | add (reg1 reg2 : Word)
  /-- 0x10 `MOV_LIT_REG literal regAddress` (43_move.md R160). -/
  | movLitReg (literal regAddress : Word)
  /-- 0x11 `MOV_REG_REG reg1 reg2`, source then destination (43_move.md R161). -/
  | movRegReg (reg1 reg2 : Word)
  /-- 0x12 `MOV_REG_MEM regAddress memAddress` (43_move.md R162). -/
  | movRegMem (regAddress memAddress : Word)
  /-- 0x13 `MOV_MEM_MEM memAddr1 memAddr2`, source then destination (43_move.md R163). -/
  | movMemMem (memAddr1 memAddr2 : Word)
  /-- 0x14 `MOV_MEM_REG memAddress regAddress` (43_move.md R164). -/
  | movMemReg (memAddress regAddress : Word)
deriving DecidableEq, Repr

end Sys2Proof
end

