-- ==== Sys2Proof/Decode.lean ====
section
/-! DEFINITION. Byte order, the opcode map, the decoder and the encoder (spec/30_encoding.md). -/

namespace Sys2Proof

/-- `hi8(v) = v[15:8]` (00_scope.md R7). -/
def hi8 (v : Word) : Byte := v.extractLsb' 8 8

/-- `lo8(v) = v[7:0]` (00_scope.md R7). -/
def lo8 (v : Word) : Byte := v.extractLsb' 0 8

/-- `a ++ b` of two bytes, `a` the more significant (00_scope.md R7); a big-endian pair (20_memory.md R51). -/
def joinBytes (a b : Byte) : Word := a ++ b

/-- `zext_16(b)` (00_scope.md R7). -/
def zext16 (b : Byte) : Word := b.setWidth 16

/-- The opcodes of format `Z`: one byte, no operand (R91). -/
inductive OpZ where
  | nop
  | hlt
deriving DecidableEq, Repr

/-- The opcodes of format `W2`: five bytes, two operand words (R92). -/
inductive OpW2 where
  | add
  | movLitReg
  | movRegReg
  | movRegMem
  | movMemMem
  | movMemReg
deriving DecidableEq, Repr

/-- An opcode with its format: the opcode byte alone decides the length (R95). -/
inductive Opcode where
  | z (op : OpZ)
  | w2 (op : OpW2)
deriving DecidableEq, Repr

/-- The opcode byte of a row of the decode table (R97). -/
def Opcode.byte : Opcode → Byte
  | .z .nop => 0x00#8
  | .z .hlt => 0x01#8
  | .w2 .add => 0x02#8
  | .w2 .movLitReg => 0x10#8
  | .w2 .movRegReg => 0x11#8
  | .w2 .movRegMem => 0x12#8
  | .w2 .movMemMem => 0x13#8
  | .w2 .movMemReg => 0x14#8

/-- The rows of the decode table, in the table's order (R97). -/
def Opcode.table : List Opcode :=
  [.z .nop, .z .hlt, .w2 .add, .w2 .movLitReg, .w2 .movRegReg, .w2 .movRegMem, .w2 .movMemMem,
    .w2 .movMemReg]

/-- Whether the row is in the decode table: `HLT` is left out when `HLT_MODE = invalid` (R98, R99). -/
def Opcode.inTable (m : HltMode) : Opcode → Bool
  | .z .hlt => m == .halt
  | _ => true

/-- The row of an opcode byte, decoded whole (R96); none when the byte is undecoded (R98). -/
def Opcode.ofByte (m : HltMode) (b : Byte) : Option Opcode :=
  Opcode.table.find? fun op => op.byte == b && op.inTable m

/-- The instruction of a `Z` opcode. -/
def OpZ.instr : OpZ → Instr
  | .nop => .nop
  | .hlt => .hlt

/-- The instruction of a `W2` opcode with its operands in stream order (R92, R97). -/
def OpW2.instr (op : OpW2) (op1 op2 : Word) : Instr :=
  match op with
  | .add => .add op1 op2
  | .movLitReg => .movLitReg op1 op2
  | .movRegReg => .movRegReg op1 op2
  | .movRegMem => .movRegMem op1 op2
  | .movMemMem => .movMemMem op1 op2
  | .movMemReg => .movMemReg op1 op2

/-- The opcode of an instruction (R97). -/
def Instr.opcode : Instr → Opcode
  | .nop => .z .nop
  | .hlt => .z .hlt
  | .add _ _ => .w2 .add
  | .movLitReg _ _ => .w2 .movLitReg
  | .movRegReg _ _ => .w2 .movRegReg
  | .movRegMem _ _ => .w2 .movRegMem
  | .movMemMem _ _ => .w2 .movMemMem
  | .movMemReg _ _ => .w2 .movMemReg

/-- The length in bytes of an instruction with this opcode (R95). -/
def Opcode.length : Opcode → Nat
  | .z _ => 1
  | .w2 _ => 5

/-- The length in bytes of an instruction (R95). -/
def Instr.length (i : Instr) : Nat := i.opcode.length

/-- Whether the instruction's opcode is in the decode table under this `HLT_MODE` (R98, R99). -/
def Instr.decodable (m : HltMode) (i : Instr) : Bool := i.opcode.inTable m

/-- Why a list of bytes is no instruction. -/
inductive DecodeError where
  /-- The opcode byte is not in the decode table (R98). -/
  | undecoded (opcode : Byte)
  /-- The bytes end before the instruction does. -/
  | truncated
deriving DecidableEq, Repr

/-- Decode the instruction at the head of a list of bytes: the instruction and the bytes after it
(R90 to R97). Total: what is no instruction is rejected by name. -/
def decode (m : HltMode) : List Byte → Except DecodeError (Instr × List Byte)
  | [] => .error .truncated
  | b :: rest =>
    match Opcode.ofByte m b with
    | none => .error (.undecoded b)
    | some (.z op) => .ok (op.instr, rest)
    | some (.w2 op) =>
      match rest with
      | a1 :: a0 :: b1 :: b0 :: rest' => .ok (op.instr (joinBytes a1 a0) (joinBytes b1 b0), rest')
      | _ => .error .truncated

/-- The five bytes of a `W2` instruction: opcode, then each operand word high byte first (R92). -/
def encodeW2 (op : OpW2) (op1 op2 : Word) : List Byte :=
  [Opcode.byte (.w2 op), hi8 op1, lo8 op1, hi8 op2, lo8 op2]

/-- The bytes of an instruction, in address order (R91, R92, R97). -/
def encode : Instr → List Byte
  | .nop => [Opcode.byte (.z .nop)]
  | .hlt => [Opcode.byte (.z .hlt)]
  | .add reg1 reg2 => encodeW2 .add reg1 reg2
  | .movLitReg literal regAddress => encodeW2 .movLitReg literal regAddress
  | .movRegReg reg1 reg2 => encodeW2 .movRegReg reg1 reg2
  | .movRegMem regAddress memAddress => encodeW2 .movRegMem regAddress memAddress
  | .movMemMem memAddr1 memAddr2 => encodeW2 .movMemMem memAddr1 memAddr2
  | .movMemReg memAddress regAddress => encodeW2 .movMemReg memAddress regAddress

/-- The `n` bytes of a number, the most significant first. -/
def bytesMsbFirst : Nat → Nat → List Byte
  | 0, _ => []
  | n + 1, w => BitVec.ofNat 8 (w / 256 ^ n) :: bytesMsbFirst n w

/-- The longest instruction (R90). -/
def maxLength : Nat := 5

/-- The bytes, in address order, of an instruction that opcode_table.json gives `nbits` bits with
the value `w`, then zeros up to the longest instruction. The table reads the whole instruction as
one number with the opcode byte most significant (30_encoding.md, first paragraph, R92), and that
reading is taken whenever the number's top byte is an opcode of this length; otherwise the first
byte is taken as the least significant one (log entry 9). -/
def tableWordBytes (nbits w : Nat) : List Byte :=
  let n := (nbits + 7) / 8
  let msbFirst := bytesMsbFirst n w
  let bytes :=
    match msbFirst.head?.bind (Opcode.ofByte .halt) with
    | some op => if op.length = n then msbFirst else msbFirst.reverse
    | none => msbFirst.reverse
  bytes ++ List.replicate (maxLength - n) 0x00#8

/-- The instruction the decoder reads from a word of the opcode table, under the default `HLT_MODE`. -/
def decodeTableWord (nbits w : Nat) : Option Instr :=
  match decode .halt (tableWordBytes nbits w) with
  | .ok (i, _) => some i
  | .error _ => none

end Sys2Proof
end

