-- ==== Sys2Proof/Machine/State.lean ====
section
/-! DEFINITION. The state of the core (spec/10_state.md R20 to R41) as plain data, the fatal
conditions (spec/60_exceptions.md R210 to R213) and the state after construction. -/

namespace Sys2Proof.Machine

/-- The registers of the reference instance, in the order of `REG_NAMES` (R22). -/
inductive RegId where
  | ip
  | acr
  | r1
  | r2
  | r3
  | r4
deriving DecidableEq, Repr

/-- The Register File: six 16-bit values. The byte order of its backing buffer cannot be observed (R24). -/
structure RegFile where
  ip : Word
  acr : Word
  r1 : Word
  r2 : Word
  r3 : Word
  r4 : Word
deriving DecidableEq, Repr

/-- A register named by its byte offset or by its name (R25, R29). -/
inductive RegRef where
  | offset (o : Nat)
  | name (n : String)
deriving DecidableEq, Repr

/-- The kind of a bus access and of the notification it makes (20_memory.md R60 to R63). -/
inductive AccessKind where
  | read
  | write
deriving DecidableEq, Repr

/-- The width of a bus access: 1 byte or 2 bytes (20_memory.md R55). -/
inductive AccessWidth where
  | byte
  | word
deriving DecidableEq, Repr

/-- The number of bytes of an access: the `n` of `MemRead(addr, n)` (00_scope.md R8). -/
def AccessWidth.bytes : AccessWidth → Nat
  | .byte => 1
  | .word => 2

/-- A fatal condition with the information recorded with it (60_exceptions.md R211 to R213, R219). -/
inductive FatalCondition where
  /-- A register access whose id names no register (R211). -/
  | invalidRegister (id : RegRef)
  /-- An opcode byte that is not in the decode table, and the address it was fetched from (R213). -/
  | invalidInstruction (opcode : Byte) (address : Word)
  /-- A bus access outside the memory (R212). -/
  | memoryOutOfBounds (address : Nat) (width : AccessWidth) (kind : AccessKind)
deriving DecidableEq, Repr

/-- The identity of a device: any type with decidable equality will do (R203; log entry 4). -/
abbrev DeviceId := Nat

/-- A Memory Region: a device bound to the inclusive address range `[first, last]` (R34, R64). -/
structure Region where
  dev : DeviceId
  first : Nat
  last : Nat
deriving DecidableEq, Repr

/-- One entry of the trace: what a device was told (R36, 20_memory.md R67). -/
structure Notification where
  dev : DeviceId
  kind : AccessKind
  address : Nat
  value : Word
deriving DecidableEq, Repr

/-- The operational state of the CPU (R35). -/
inductive RunState where
  | running
  | halted
deriving DecidableEq, Repr

/-- The Addressable Memory as (address, byte) pairs; an address not listed reads as
`Config.memInit` (R33, R41). -/
abbrev Memory := List Host.Cell

/-- The canonical form: addresses strictly rising, and no entry equal to what an unlisted address
reads as, so that equal memories are equal lists. -/
abbrev Memory.wf (m : Memory) : Prop :=
  m.Pairwise (fun c d => c.1 < d.1) ∧ ∀ c ∈ m, c.2 ≠ Config.memInit

/-- The complete state of the core (R20), with the parameters it was constructed with (R38). -/
structure State where
  /-- `MEM_SIZE` and `HLT_MODE`, fixed at construction (00_scope.md R6). -/
  cfg : Config
  /-- The Register File, `ip` and `acr` included (R21 to R31). -/
  regs : RegFile
  /-- The Addressable Memory (R33). -/
  mem : Memory
  /-- The Memory Regions of the Bus, the one searched first at the head (R34). -/
  regions : List Region
  /-- Running or Halted (R35). -/
  run : RunState
  /-- The latch for a fatal condition (R37). -/
  fault : Option FatalCondition
  /-- The notifications made, oldest first (R36). -/
  trace : List Notification
deriving DecidableEq, Repr

/-- Why a step stops without a next state: never. Every stop the spec describes is the entry of a
fatal condition (60_exceptions.md R214), which leaves a state with the latch `fault` set, and a step
on a stopped core answers that state unchanged (40_engine.md R128); so there is no constructor
(log entry 5). -/
inductive Fault where
deriving DecidableEq, Repr

/-- What the model gives no meaning to. No instruction answers one. -/
inductive Refusal where
  /-- An instruction that has no meaning yet, raised by its arm of `exec` only; safe. No arm raises it. -/
  | notModelled (mnemonic : String)
  /-- `construct` with a memory size outside 1 to 65536 (92_eei_decisions.md D5), raised by
  `Session.construct`; safe. -/
  | memSizeOutOfRange
  /-- `map` after the first `step()` (93_implementation_defined.md U3), raised by `Session.call`; safe. -/
  | mapAfterSetup
  /-- `loadBlock` after the first `step()` (93_implementation_defined.md U3), raised by `Session.call`; safe. -/
  | loadBlockAfterSetup
  /-- `loadBlock` with a block that does not fit in memory (93_implementation_defined.md U2), raised
  by `Session.call`; safe. -/
  | blockDoesNotFit
deriving DecidableEq, Repr

/-- The Register File after construction: `ip` is 0, the others hold `REG_INIT` (R41; log entry 2). -/
def RegFile.reset : RegFile :=
  ⟨0x0000#16, Config.regInit, Config.regInit, Config.regInit, Config.regInit, Config.regInit⟩

/-- The state after construction with the given parameters, register contents and memory contents.
`ip = 0` and `run = Running` are not open (R41, last paragraph). -/
def State.construct (cfg : Config) (regInit : RegFile) (memInit : Memory) : State where
  cfg := cfg
  regs := { regInit with ip := 0x0000#16 }
  mem := memInit
  regions := []
  run := .running
  fault := none
  trace := []

/-- The machine right after reset, which is construction (70_reset_and_hazards.md R240, R241). -/
def State.reset : State := State.construct Config.reference RegFile.reset []

end Sys2Proof.Machine
end

