-- ==== Sys2Proof/Machine/Ops.lean ====
section
/-! DEFINITION. The named operations over registers, memory and the bus, the entry of a fatal
condition, and the two fetch primitives (spec/10_state.md, spec/20_memory.md, spec/60_exceptions.md,
spec/40_engine.md). -/

namespace Sys2Proof.Machine

/-! ## Actions: the spec's sequential pseudocode (00_scope.md R9, 60_exceptions.md R214) -/

/-- How an action ends: done with a value, or by `raise`. Either way everything done so far stays
(R214, point 4), so both carry the state. -/
inductive Res (α : Type) where
  | done (v : α) (s : State)
  | raised (s : State)
deriving DecidableEq, Repr

/-- The next action of a sequence; after a `raise` nothing more happens (R214, point 3). -/
def Res.andThen {α β : Type} (r : Res α) (k : α → State → Res β) : Res β :=
  match r with
  | .done v s => k v s
  | .raised s => .raised s

/-- The state an action leaves, whichever way it ends. -/
def Res.state {α : Type} : Res α → State
  | .done _ s => s
  | .raised s => s

/-- An instruction ends in a next state in both cases: the entry of a fatal condition is a state
with the latch set (R214; log entry 5). -/
def Res.outcome {α : Type} (r : Res α) : Host.Outcome State Fault Refusal := .next r.state

/-- `fault <- C(info)`: the latch is set once and never changes again (10_state.md R37; R218; 90_conflicts.md C9). -/
def State.latch (c : FatalCondition) (s : State) : State :=
  match s.fault with
  | none => { s with fault := some c }
  | some _ => s

/-- `raise C(info)`, the entry of a fatal condition (R214): the latch is set and the instruction or
host operation ends; nothing is rolled back, nothing is saved, `run` stays. There is no return from
it (R218), so no operation undoes this one. -/
def raise {α : Type} (c : FatalCondition) (s : State) : Res α := .raised (s.latch c)

/-! ## The Register File (10_state.md R21 to R31) -/

/-- The position of a register in `REG_NAMES` (R23). -/
def RegId.index : RegId → Nat
  | .ip => 0
  | .acr => 1
  | .r1 => 2
  | .r2 => 3
  | .r3 => 4
  | .r4 => 5

/-- The register at a position of `REG_NAMES`. -/
def RegId.ofIndex : Nat → Option RegId
  | 0 => some .ip
  | 1 => some .acr
  | 2 => some .r1
  | 3 => some .r2
  | 4 => some .r3
  | 5 => some .r4
  | _ => none

/-- The register address of a register: twice its position (R23, the spec's decision D1). -/
def RegId.offset (r : RegId) : Word := BitVec.ofNat 16 (2 * r.index)

/-- The register a byte offset names: none when it is odd or greater than `REG_BYTES - 2` (R25, R27). -/
def RegId.ofOffset (o : Nat) : Option RegId :=
  if o % 2 = 1 ∨ Config.regBytes - 2 < o then none else RegId.ofIndex (o / 2)

/-- The register a name names, compared exactly (R29). -/
def RegId.ofName (n : String) : Option RegId :=
  (Config.regNames.idxOf? n).bind fun i => RegId.ofOffset (2 * i)

/-- The register an id names. -/
def RegId.ofRef : RegRef → Option RegId
  | .offset o => RegId.ofOffset o
  | .name n => RegId.ofName n

/-- The value of a register. -/
def RegFile.get (f : RegFile) : RegId → Word
  | .ip => f.ip
  | .acr => f.acr
  | .r1 => f.r1
  | .r2 => f.r2
  | .r3 => f.r3
  | .r4 => f.r4

/-- Exactly one register changes (R28). -/
def RegFile.set (f : RegFile) (r : RegId) (v : Word) : RegFile :=
  match r with
  | .ip => { f with ip := v }
  | .acr => { f with acr := v }
  | .r1 => { f with r1 := v }
  | .r2 => { f with r2 := v }
  | .r3 => { f with r3 := v }
  | .r4 => { f with r4 := v }

/-- The value of a register, in a state. -/
def State.reg (s : State) (r : RegId) : Word := s.regs.get r

/-- The state with one register written. -/
def State.setReg (s : State) (r : RegId) (v : Word) : State := { s with regs := s.regs.set r v }

/-- `x[id]`: register read by offset (R27) or by name (R29); it changes no state. -/
def readReg (id : RegRef) (s : State) : Res Word :=
  match RegId.ofRef id with
  | some r => .done (s.reg r) s
  | none => raise (.invalidRegister id) s

/-- `x[id] <- v`: register write by offset (R28) or by name (R29). -/
def writeReg (id : RegRef) (v : Word) (s : State) : Res Unit :=
  match RegId.ofRef id with
  | some r => .done () (s.setReg r v)
  | none => raise (.invalidRegister id) s

/-! ## Raw memory (10_state.md R33) -/

/-- `mem[a]`: the raw byte at `a`. -/
def Memory.read : Memory → Nat → Byte
  | [], _ => Config.memInit
  | c :: rest, a => if c.1 = a then c.2 else Memory.read rest a

/-- The memory without an entry for `a`. -/
def Memory.erase (m : Memory) (a : Nat) : Memory := m.filter fun c => c.1 != a

/-- A cell put in its place by address. -/
def Memory.insert (c : Host.Cell) : Memory → Memory
  | [] => [c]
  | d :: rest => if c.1 < d.1 then c :: d :: rest else d :: Memory.insert c rest

/-- `mem[a] <- b`, keeping the canonical form. -/
def Memory.write (m : Memory) (a : Nat) (b : Byte) : Memory :=
  if b = Config.memInit then m.erase a else Memory.insert (a, b) (m.erase a)

/-- The big-endian word at `a`, `mem[a] ++ mem[a + 1]` (20_memory.md R51). -/
def Memory.readWord (m : Memory) (a : Nat) : Word := joinBytes (m.read a) (m.read (a + 1))

/-- The big-endian write of a word (20_memory.md R51). -/
def Memory.writeWord (m : Memory) (a : Nat) (w : Word) : Memory :=
  (m.write a (hi8 w)).write (a + 1) (lo8 w)

/-- `mem[a + k] <- bytes[k]` for each `k` in turn (20_memory.md R71). -/
def Memory.writeBlock (m : Memory) (a : Nat) : List Byte → Memory
  | [] => m
  | b :: rest => (m.write a b).writeBlock (a + 1) rest

/-- `MEM_SIZE`. -/
def State.memSize (s : State) : Nat := s.cfg.memSize.val

/-! ## Regions and notification (20_memory.md R64 to R68) -/

/-- `start <= a <= end` (R64). -/
def Region.contains (r : Region) (a : Nat) : Bool := decide (r.first ≤ a) && decide (a ≤ r.last)

/-- `findRegion(a)`: the first containing region in head-first order (R66). -/
def findRegion (regions : List Region) (a : Nat) : Option Region := regions.find? fun r => r.contains a

/-- `map(dev, start, end)`: a region put at the head of the search order (R65). -/
def mapRegion (dev : DeviceId) (first last : Nat) (s : State) : State :=
  { s with regions := ⟨dev, first, last⟩ :: s.regions }

/-- `notify(dev, kind, addr, value)`: an entry appended to the trace and nothing else (R67, R68). -/
def notify (n : Notification) (s : State) : State := { s with trace := s.trace ++ [n] }

/-- The last part of each accessor: look up the base address, and notify the device found, if any
(R60 to R63, R69). -/
def notifyMapped (kind : AccessKind) (a : Nat) (value : Word) (s : State) : State :=
  match findRegion s.regions a with
  | none => s
  | some r => notify ⟨r.dev, kind, a, value⟩ s

/-! ## The four bus accessors (20_memory.md R60 to R63), the bounds check of R53 in front -/

/-- `getByte(a)` (R60). -/
def getByte (a : Nat) (s : State) : Res Byte :=
  if a < s.memSize then
    .done (s.mem.read a) (notifyMapped .read a (zext16 (s.mem.read a)) s)
  else raise (.memoryOutOfBounds a .byte .read) s

/-- `getWord(a)` (R61): the comparison is on natural numbers, `a + 1` does not wrap (R52). -/
def getWord (a : Nat) (s : State) : Res Word :=
  if a + 1 < s.memSize then
    .done (s.mem.readWord a) (notifyMapped .read a (s.mem.readWord a) s)
  else raise (.memoryOutOfBounds a .word .read) s

/-- `setByte(a, b)` (R62). -/
def setByte (a : Nat) (b : Byte) (s : State) : Res Unit :=
  if a < s.memSize then
    .done () (notifyMapped .write a (zext16 b) { s with mem := s.mem.write a b })
  else raise (.memoryOutOfBounds a .byte .write) s

/-- `setWord(a, w)` (R63). -/
def setWord (a : Nat) (w : Word) (s : State) : Res Unit :=
  if a + 1 < s.memSize then
    .done () (notifyMapped .write a w { s with mem := s.mem.writeWord a w })
  else raise (.memoryOutOfBounds a .word .write) s

/-! ## The fetch primitives (40_engine.md R120, R121) -/

/-- `fetchByte()` (R120): the read first, then the advance of `ip` by 1 modulo 65536 (10_state.md R26). -/
def fetchByte (s : State) : Res Byte :=
  (getByte s.regs.ip.toNat s).andThen fun b t => .done b (t.setReg .ip (s.regs.ip + 1#16))

/-- `fetchWord()` (R121): the read first, then the advance of `ip` by 2 modulo 65536. -/
def fetchWord (s : State) : Res Word :=
  (getWord s.regs.ip.toNat s).andThen fun w t => .done w (t.setReg .ip (s.regs.ip + 2#16))

end Sys2Proof.Machine
end

