-- ==== Sys2Proof/Machine/Operands.lean ====
section
/-! DEFINITION. The operand kinds (spec/30_encoding.md R94) as sources and destinations, and the
read-then-write order of a move (spec/40_engine.md R125, points 3 and 4). -/

namespace Sys2Proof.Machine

/-- Where a move takes its value from: a literal, a register address or a memory address (R94). -/
inductive Source where
  | literal (value : Word)
  | register (address : Word)
  | memory (address : Word)
deriving DecidableEq, Repr

/-- Where a move puts its value: a register address or a memory address (R94). -/
inductive Destination where
  | register (address : Word)
  | memory (address : Word)
deriving DecidableEq, Repr

/-- `x[o]` for an operand word `o` (10_state.md R27). -/
def readRegister (o : Word) (s : State) : Res Word := readReg (.offset o.toNat) s

/-- `x[o] <- v` for an operand word `o` (10_state.md R28). -/
def writeRegister (o : Word) (v : Word) (s : State) : Res Unit := writeReg (.offset o.toNat) v s

/-- Read the source: nothing for a literal, a register read, or a memory word read (R125, point 3). -/
def readSource (src : Source) (s : State) : Res Word :=
  match src with
  | .literal v => .done v s
  | .register o => readRegister o s
  | .memory a => getWord a.toNat s

/-- Write the destination: a register write or a memory word write (R125, point 4). -/
def writeDestination (dst : Destination) (v : Word) (s : State) : Res Unit :=
  match dst with
  | .register o => writeRegister o v s
  | .memory a => setWord a.toNat v s

/-- A move: the source is read whole, then the destination is written (R125; 43_move.md). -/
def move (src : Source) (dst : Destination) (s : State) : Res Unit :=
  (readSource src s).andThen fun v t => writeDestination dst v t

end Sys2Proof.Machine
end

