-- ==== Sys2Proof/Machine/Arithmetic.lean ====
section
/-! DEFINITION. The arithmetic instruction `ADD` (spec/42_arithmetic.md). -/

namespace Sys2Proof.Machine

/-- `ADD`: `reg1` is read, then `reg2`, then `acr` is written with their sum modulo 65536 (R150). -/
def execAdd (reg1 reg2 : Word) (s : State) : Host.Outcome State Fault Refusal :=
  ((readRegister reg1 s).andThen fun v1 s1 =>
    (readRegister reg2 s1).andThen fun v2 s2 =>
      .done () (s2.setReg .acr (sum16 v1 v2))).outcome

end Sys2Proof.Machine
end

