-- ==== Sys2Proof/Machine/Control.lean ====
section
/-! DEFINITION. The control instructions (spec/41_control.md). A meaning runs after the instruction's
fetches: `ip` already holds the address of the next instruction (spec/40_engine.md R124, R125). -/

namespace Sys2Proof.Machine

/-- `NOP`: no effect (R140). -/
def execNop (s : State) : Host.Outcome State Fault Refusal := .next s

/-- `HLT`: `run <- Halted` when `HLT_MODE = halt` (R141); when it is `invalid`, 0x01 raises
`InvalidInstruction` with the address of the opcode byte (R142, 40_engine.md R123). The decoder
already leaves 0x01 out of the table in that mode (R98), so a step raises it there. -/
def execHlt (s : State) : Host.Outcome State Fault Refusal :=
  match s.cfg.hltMode with
  | .halt => .next { s with run := .halted }
  | .invalid => (raise (α := Unit) (.invalidInstruction 0x01#8 (s.regs.ip - 1#16)) s).outcome

end Sys2Proof.Machine
end

