-- ==== Sys2Proof/Machine/Move.lean ====
section
/-! DEFINITION. The data movement instructions (spec/43_move.md): each is a move between two operand
kinds, the first operand the source and the second the destination. -/

namespace Sys2Proof.Machine

/-- `MOV_LIT_REG`: `x[regAddress] <- literal` (R160). -/
def execMovLitReg (literal regAddress : Word) (s : State) : Host.Outcome State Fault Refusal :=
  (move (.literal literal) (.register regAddress) s).outcome

/-- `MOV_REG_REG`: `x[reg2] <- x[reg1]` (R161). -/
def execMovRegReg (reg1 reg2 : Word) (s : State) : Host.Outcome State Fault Refusal :=
  (move (.register reg1) (.register reg2) s).outcome

/-- `MOV_REG_MEM`: a word store of `x[regAddress]` (R162). -/
def execMovRegMem (regAddress memAddress : Word) (s : State) : Host.Outcome State Fault Refusal :=
  (move (.register regAddress) (.memory memAddress) s).outcome

/-- `MOV_MEM_MEM`: a word read at `memAddr1`, then a word write at `memAddr2` (R163). -/
def execMovMemMem (memAddr1 memAddr2 : Word) (s : State) : Host.Outcome State Fault Refusal :=
  (move (.memory memAddr1) (.memory memAddr2) s).outcome

/-- `MOV_MEM_REG`: a word load from `memAddress` (R164). -/
def execMovMemReg (memAddress regAddress : Word) (s : State) : Host.Outcome State Fault Refusal :=
  (move (.memory memAddress) (.register regAddress) s).outcome

end Sys2Proof.Machine
end

