-- ==== Sys2Proof/Machine/Dispatch.lean ====
section
/-! DEFINITION. One arm per instruction (spec/40_engine.md R123). -/

namespace Sys2Proof.Machine

/-- What an instruction does after its fetches. -/
def exec (i : Instr) (s : State) : Host.Outcome State Fault Refusal :=
  match i with
  | .nop => Sys2Proof.Machine.execNop s
  | .hlt => Sys2Proof.Machine.execHlt s
  | .add reg1 reg2 => Sys2Proof.Machine.execAdd reg1 reg2 s
  | .movLitReg literal regAddress => Sys2Proof.Machine.execMovLitReg literal regAddress s
  | .movRegReg reg1 reg2 => Sys2Proof.Machine.execMovRegReg reg1 reg2 s
  | .movRegMem regAddress memAddress => Sys2Proof.Machine.execMovRegMem regAddress memAddress s
  | .movMemMem memAddr1 memAddr2 => Sys2Proof.Machine.execMovMemMem memAddr1 memAddr2 s
  | .movMemReg memAddress regAddress => Sys2Proof.Machine.execMovMemReg memAddress regAddress s

end Sys2Proof.Machine
end

