-- ==== Sys2Proof/Machine/Fetch.lean ====
section
/-! DEFINITION. Fetching a whole instruction (spec/40_engine.md R122 to R124), and placing one where
the next step fetches it. -/

namespace Sys2Proof.Machine

/-- A step does nothing when `run = Halted` or `fault != none` (R122, R128). -/
def State.stopped (s : State) : Bool := s.run == .halted || s.fault.isSome

/-- The opcode byte, then, by the opcode alone, the operand words in stream order, both fetched
before anything else is done (R122 to R124). An undecoded opcode raises `InvalidInstruction` with
the opcode's address, before any operand fetch (R123, R213). -/
def fetchInstr (s : State) : Res Instr :=
  (fetchByte s).andThen fun opcode s1 =>
    match Opcode.ofByte s1.cfg.hltMode opcode with
    | none => raise (.invalidInstruction opcode (s1.regs.ip - 1#16)) s1
    | some (.z op) => .done op.instr s1
    | some (.w2 op) =>
      (fetchWord s1).andThen fun op1 s2 =>
        (fetchWord s2).andThen fun op2 s3 => .done (op.instr op1 op2) s3

/-- Bytes put in memory from a 16-bit address on, the address advancing as `ip` does (10_state.md R26),
leaving out what lies beyond the memory; no notification (as `loadBlock`, 20_memory.md R71). -/
def placeBytes (a : Word) (bytes : List Byte) (s : State) : State :=
  match bytes with
  | [] => s
  | b :: rest =>
    placeBytes (a + 1#16) rest
      (if a.toNat < s.memSize then { s with mem := s.mem.write a.toNat b } else s)

end Sys2Proof.Machine
end

