-- ==== Sys2Proof/Machine/Step.lean ====
section
/-! DEFINITION. `step()` (spec/40_engine.md R122) and a fetch word placed at `ip`. -/

namespace Sys2Proof.Machine

/-- `step()`: nothing on a stopped core (R128); otherwise one instruction is fetched and executed,
and a `raise` in the fetches ends the step there (R122). -/
def step (s : State) : Host.Outcome State Fault Refusal :=
  if s.stopped then .next s
  else
    match fetchInstr s with
    | .done i t => exec i t
    | .raised t => .next t

/-- The state with the instruction of an opcode-table word placed at `ip`, where `step` fetches; it
stands for the host's `loadBlock` (45_host_and_device_interface.md R184; log entry 10). -/
def State.withFetchWord (s : State) (nbits w : Nat) : State :=
  placeBytes s.regs.ip (tableWordBytes nbits w) s

end Sys2Proof.Machine
end

