-- ==== Sys2Proof/Machine/Display.lean ====
section
/-! DEFINITION. The reference display device (spec/45_host_and_device_interface.md R204, R205): not
part of the core, a function of the trace entries its device received. -/

namespace Sys2Proof.Machine

/-- A display: the device it is and the size of its grid, the device's own parameters (R204). -/
structure Display where
  dev : DeviceId
  width : { n : Nat // 0 < n }
  height : { n : Nat // 0 < n }
deriving DecidableEq, Repr

/-- A character code rendered at `(x, y)`. -/
structure Glyph where
  x : Nat
  y : Nat
  code : Byte
deriving DecidableEq, Repr

/-- `x = address mod width`, `y = (address / width) mod height`, of the absolute address (R204). -/
def Display.cell (d : Display) (address : Nat) : Nat × Nat :=
  (address % d.width.val, address / d.width.val % d.height.val)

/-- What one notification renders: a write to this device renders the low 8 bits of the value at the
cell of the address; reads are unobserved (R204). -/
def Display.see (d : Display) (n : Notification) : Option Glyph :=
  if n.dev = d.dev ∧ n.kind = .write then
    some ⟨(d.cell n.address).1, (d.cell n.address).2, lo8 n.value⟩
  else none

/-- What the display has rendered after a trace, in order (R205). -/
def Display.render (d : Display) (trace : List Notification) : List Glyph := trace.filterMap d.see

end Sys2Proof.Machine
end

