-- ==== Sys2Proof/Machine/HostPort.lean ====
section
/-! DEFINITION. The host's side (spec/45_host_and_device_interface.md R180 to R192): construction,
the setup phase, `step()`, the register and bus accessors, raw inspection. A host operation happens
entirely before or after a step (R181), so each is one call on a whole state. -/

namespace Sys2Proof.Machine

/-- Whether the first `step()` has been called: `map` and `loadBlock` belong to the setup phase
(R183, R184). This is the contract's, not the core's, so it is no field of `State` (log entry 6). -/
inductive Phase where
  | setup
  | executing
deriving DecidableEq, Repr

/-- A core and how far its host has come with it. -/
structure Session where
  core : State
  phase : Phase
deriving DecidableEq, Repr

/-- The operations of the host (R180). An address is any natural number (20_memory.md section 2). -/
inductive HostOp where
  /-- `map(device, start, end)` (R183). -/
  | map (dev : DeviceId) (first last : Nat)
  /-- `loadBlock(bytes, startAddress)` (R184). -/
  | loadBlock (bytes : List Byte) (start : Nat)
  /-- `step()` (R185). -/
  | step
  /-- `read(id)` (R188). -/
  | readReg (id : RegRef)
  /-- `write(id, value)` (R188, R189). What it returns is not modelled (92_eei_decisions.md D24). -/
  | writeReg (id : RegRef) (value : Word)
  /-- `getByte(a)` (R190). -/
  | getByte (a : Nat)
  /-- `getWord(a)` (R190). -/
  | getWord (a : Nat)
  /-- `setByte(a, b)` (R190). -/
  | setByte (a : Nat) (b : Byte)
  /-- `setWord(a, w)` (R190). -/
  | setWord (a : Nat) (w : Word)
deriving DecidableEq, Repr

/-- What a host operation answers: nothing when it returns no value, or when it raised. -/
inductive HostReply where
  | nothing
  | byte (b : Byte)
  | word (w : Word)
deriving DecidableEq, Repr

/-- `construct(MEM_SIZE)` (R182) with the other parameters of 00_scope.md R6. A size outside 1 to
65536 is refused (92_eei_decisions.md D5). -/
def Session.construct (memSize : Nat) (hltMode : HltMode) :
    Host.Outcome Session Fault Refusal :=
  if h : 1 ≤ memSize ∧ memSize ≤ 65536 then
    .next ⟨State.construct ⟨⟨memSize, h⟩, hltMode⟩ RegFile.reset [], .setup⟩
  else .refused .memSizeOutOfRange

/-- The reply of an accessor and the state it leaves; an accessor that raised latches `fault` and
answers nothing (R187, R188, R190). -/
def Session.access {α : Type} (x : Session) (reply : α → HostReply) (r : Res α) :
    Host.Outcome (Session × HostReply) Fault Refusal :=
  match r with
  | .done v s => .next ({ x with core := s }, reply v)
  | .raised s => .next ({ x with core := s }, .nothing)

/-- `map` in the setup phase (R183); refused afterwards (93_implementation_defined.md U3). -/
def Session.map (x : Session) (dev : DeviceId) (first last : Nat) :
    Host.Outcome (Session × HostReply) Fault Refusal :=
  match x.phase with
  | .setup => .next ({ x with core := mapRegion dev first last x.core }, .nothing)
  | .executing => .refused .mapAfterSetup

/-- `loadBlock` in the setup phase (R184, 20_memory.md R71), without notification; refused afterwards
(93_implementation_defined.md U3) and for a block that does not fit (U2). -/
def Session.loadBlock (x : Session) (bytes : List Byte) (start : Nat) :
    Host.Outcome (Session × HostReply) Fault Refusal :=
  match x.phase with
  | .executing => .refused .loadBlockAfterSetup
  | .setup =>
    if start + bytes.length ≤ x.core.memSize then
      .next ({ x with core := { x.core with mem := x.core.mem.writeBlock start bytes } }, .nothing)
    else .refused .blockDoesNotFit

/-- `step()` (R185); it ends the setup phase (R183). -/
def Session.step (x : Session) : Host.Outcome (Session × HostReply) Fault Refusal :=
  match Sys2Proof.Machine.step x.core with
  | .next s => .next (⟨s, .executing⟩, .nothing)
  | .fault f => .fault f
  | .refused r => .refused r

/-- One host operation. -/
def Session.call (x : Session) (op : HostOp) : Host.Outcome (Session × HostReply) Fault Refusal :=
  match op with
  | .map dev first last => x.map dev first last
  | .loadBlock bytes start => x.loadBlock bytes start
  | .step => x.step
  | .readReg id => x.access .word (Sys2Proof.Machine.readReg id x.core)
  | .writeReg id value => x.access (fun _ => .nothing) (Sys2Proof.Machine.writeReg id value x.core)
  | .getByte a => x.access .byte (Sys2Proof.Machine.getByte a x.core)
  | .getWord a => x.access .word (Sys2Proof.Machine.getWord a x.core)
  | .setByte a b => x.access (fun _ => .nothing) (Sys2Proof.Machine.setByte a b x.core)
  | .setWord a w => x.access (fun _ => .nothing) (Sys2Proof.Machine.setWord a w x.core)

/-- A sequence of host operations, ended by the first refusal. -/
def Session.calls (x : Session) : List HostOp → Host.Outcome Session Fault Refusal
  | [] => .next x
  | op :: rest =>
    match x.call op with
    | .next (y, _) => y.calls rest
    | .fault f => .fault f
    | .refused r => .refused r

/-- Raw inspection of a register: no access, no notification (R191). -/
def Session.inspectReg (x : Session) (r : RegId) : Word := x.core.reg r

/-- Raw inspection of memory (R191): the byte at an address the memory has. -/
def Session.inspectByte (x : Session) (a : Nat) : Option Byte :=
  if a < x.core.memSize then some (x.core.mem.read a) else none

end Sys2Proof.Machine
end

