-- ==== Sys2Proof/WellFormed.lean ====
section
/-! DEFINITION. Which instructions have only valid operands (the "validity" column of
spec/30_encoding.md R94). An instruction that is not well formed is still decoded and still
executed: it raises a fatal condition at the action that uses the bad operand (R125). -/

namespace Sys2Proof

/-- A register address is valid exactly when it is even and at most `REG_BYTES - 2` (10_state.md R25). -/
def Operand.validRegister (o : Word) : Bool :=
  o.toNat % 2 == 0 && decide (o.toNat ≤ Config.regBytes - 2)

/-- A memory address names a word inside memory exactly when `value + 1 < MEM_SIZE` (R94, 20_memory.md R52). -/
def Operand.validMemory (c : Config) (a : Word) : Bool :=
  decide (a.toNat + 1 < c.memSize.val)

/-- Every operand is valid for its kind. `HLT` is an instruction only under `HLT_MODE = halt` (R99). -/
def Instr.wellFormed (c : Config) : Instr → Bool
  | .nop => true
  | .hlt => c.hltMode == .halt
  | .add reg1 reg2 => Operand.validRegister reg1 && Operand.validRegister reg2
  | .movLitReg _ regAddress => Operand.validRegister regAddress
  | .movRegReg reg1 reg2 => Operand.validRegister reg1 && Operand.validRegister reg2
  | .movRegMem regAddress memAddress => Operand.validRegister regAddress && Operand.validMemory c memAddress
  | .movMemMem memAddr1 memAddr2 => Operand.validMemory c memAddr1 && Operand.validMemory c memAddr2
  | .movMemReg memAddress regAddress => Operand.validMemory c memAddress && Operand.validRegister regAddress

end Sys2Proof
end

