-- ==== Sys2Proof/Safety.lean ====
section
/-! DEFINITION. The terms in which claims about the core are stated: the invariant of its states,
what a core is told by an access, and the state after an instruction's fetches. -/

namespace Sys2Proof.Machine

/-- The core can step: Running, and no fatal condition latched (spec/40_engine.md R122). -/
abbrev State.running (s : State) : Prop := s.run = .running ∧ s.fault = none

/-- The invariant of every state a core can be in: memory in canonical form, and no byte listed at
or beyond `MEM_SIZE` (10_state.md R33: addresses `0` to `MEM_SIZE - 1`). -/
abbrev State.Inv (s : State) : Prop := s.mem.wf ∧ ∀ c ∈ s.mem, c.1 < s.memSize

/-- The notification an access makes: at most one, to the device found for its base address
(20_memory.md R60 to R63, R66). -/
def told (regions : List Region) (kind : AccessKind) (a : Nat) (value : Word) : List Notification :=
  ((findRegion regions a).map fun r => ⟨r.dev, kind, a, value⟩).toList

/-- The five bytes from `ip` on, the address wrapping as `ip` does (10_state.md R26): all that the
next instruction can consist of. -/
def State.codeBytes (s : State) : List Byte :=
  [s.mem.read s.regs.ip.toNat, s.mem.read (s.regs.ip + 1#16).toNat, s.mem.read (s.regs.ip + 2#16).toNat,
    s.mem.read (s.regs.ip + 3#16).toNat, s.mem.read (s.regs.ip + 4#16).toNat]

/-- Every fetch of an instruction of this length at `ip` is in bounds (20_memory.md R52): the opcode
byte, and for five bytes the words at `ip + 1` and `ip + 3`. -/
abbrev State.fetchable (s : State) (length : Nat) : Prop :=
  s.regs.ip.toNat < s.memSize ∧
    (length = 5 → (s.regs.ip + 1#16).toNat + 1 < s.memSize ∧ (s.regs.ip + 3#16).toNat + 1 < s.memSize)

/-- The notifications of the opcode fetch (20_memory.md R70). -/
def State.opcodeTold (s : State) : List Notification :=
  told s.regions .read s.regs.ip.toNat (zext16 (s.mem.read s.regs.ip.toNat))

/-- The notification of the operand fetch at `p`. -/
def State.operandTold (s : State) (p : Word) : List Notification :=
  told s.regions .read p.toNat (s.mem.readWord p.toNat)

/-- All notifications of the fetches of an instruction of this length at `ip`, in order. -/
def State.fetchTold (s : State) (length : Nat) : List Notification :=
  s.opcodeTold ++
    if length = 5 then s.operandTold (s.regs.ip + 1#16) ++ s.operandTold (s.regs.ip + 3#16) else []

/-- `ip` advanced by `n` modulo 65536 and the given notifications made; nothing else changed
(40_engine.md R126). -/
def State.advanced (s : State) (n : Nat) (notes : List Notification) : State :=
  { s with
    regs := { s.regs with ip := s.regs.ip + BitVec.ofNat 16 n }
    trace := s.trace ++ notes }

/-- The state after the fetches of an instruction of this length (40_engine.md R124). -/
def State.afterFetch (s : State) (length : Nat) : State := s.advanced length (s.fetchTold length)

/-- The bytes at `ip` stand for the instruction: a running core that finds them there, every fetch in
bounds, executes the instruction after its fetches, which have advanced `ip` past them. -/
def EncodedAs (bytes : List Byte) (i : Instr) : Prop :=
  ∀ s : State, ∀ rest : List Byte, s.running → i.decodable s.cfg.hltMode = true →
    s.codeBytes = bytes ++ rest → s.fetchable bytes.length →
    step s = exec i (s.afterFetch bytes.length) ∧
      (s.afterFetch bytes.length).regs.ip.toNat = (s.regs.ip.toNat + bytes.length) % 65536

/-- The fatal condition is latched, and everything else is as it was (60_exceptions.md R214); the
first condition stays (10_state.md R37). -/
def State.withFault (s : State) (c : FatalCondition) : State :=
  { s with fault := some (s.fault.getD c) }

/-- A register address that names no register: odd, or greater than `REG_BYTES - 2` (10_state.md R25). -/
abbrev BadRegister (o : Word) : Prop := o.toNat % 2 = 1 ∨ 10 < o.toNat

/-- What no instruction but `HLT` and no fatal condition changes: the parameters, the regions, `run`
and the latch. -/
abbrev SameControl (s t : State) : Prop :=
  t.cfg = s.cfg ∧ t.regions = s.regions ∧ t.run = s.run ∧ t.fault = s.fault

/-- Two cores that agree on everything but their regions and their trace. -/
abbrev SameButDevices (s t : State) : Prop :=
  s.cfg = t.cfg ∧ s.regs = t.regs ∧ s.mem = t.mem ∧ s.run = t.run ∧ s.fault = t.fault

/-- The opcode byte at `ip`. -/
abbrev State.opcodeByte (s : State) : Byte := s.mem.read s.regs.ip.toNat

/-- The first operand word of an instruction at `ip` (30_encoding.md R92). -/
abbrev State.operand1 (s : State) : Word := s.mem.readWord (s.regs.ip + 1#16).toNat

/-- The second operand word of an instruction at `ip` (30_encoding.md R92). -/
abbrev State.operand2 (s : State) : Word := s.mem.readWord (s.regs.ip + 3#16).toNat

/-- An opcode byte of format `W2` (30_encoding.md R97). -/
abbrev FiveByteOpcode (b : Byte) : Prop :=
  b = 0x02#8 ∨ b = 0x10#8 ∨ b = 0x11#8 ∨ b = 0x12#8 ∨ b = 0x13#8 ∨ b = 0x14#8

/-- An undecoded opcode byte: 0x03 to 0x0F, 0x15 to 0xFF, and 0x01 when `HLT_MODE = invalid`
(30_encoding.md R98). -/
abbrev UndecodedOpcode (m : HltMode) (b : Byte) : Prop :=
  (0x03 ≤ b.toNat ∧ b.toNat ≤ 0x0F) ∨ 0x15 ≤ b.toNat ∨ (b = 0x01#8 ∧ m = .invalid)

end Sys2Proof.Machine
end

