-- ==== Sys2Proof/Certificates/Slice0/Obligations.lean ====
section
/-! DEFINITION. The statements for the provers, from the numbered rules of spec/. "Decision D<n>" is
a choice the spec marks as its own (spec/92_eei_decisions.md); a clause that rests on one says so. -/

open Sys2Proof Sys2Proof.Machine

/-! ## Encoding and decoding -/

/-- The byte sequences printed in the rules decode to the instructions they are printed for: the
encodings of R140 and R141, and the examples of R150 and R160 to R164. -/
def Obligations.SpecExampleBytesDecode : Prop :=
  decode .halt [0x00#8] = .ok (.nop, []) ∧
  decode .halt [0x01#8] = .ok (.hlt, []) ∧
  decode .halt [0x02#8, 0x00#8, 0x04#8, 0x00#8, 0x06#8] = .ok (.add 0x0004#16 0x0006#16, []) ∧
  decode .halt [0x10#8, 0x00#8, 0x05#8, 0x00#8, 0x04#8] = .ok (.movLitReg 0x0005#16 0x0004#16, []) ∧
  decode .halt [0x11#8, 0x00#8, 0x04#8, 0x00#8, 0x08#8] = .ok (.movRegReg 0x0004#16 0x0008#16, []) ∧
  decode .halt [0x12#8, 0x00#8, 0x04#8, 0x01#8, 0x00#8] = .ok (.movRegMem 0x0004#16 0x0100#16, []) ∧
  decode .halt [0x13#8, 0x01#8, 0x00#8, 0x01#8, 0x02#8] = .ok (.movMemMem 0x0100#16 0x0102#16, []) ∧
  decode .halt [0x14#8, 0x01#8, 0x02#8, 0x00#8, 0x08#8] = .ok (.movMemReg 0x0102#16 0x0008#16, [])

/-- Decoding the encoding of any instruction, whatever bytes follow, gives it back with every operand
at every value, and leaves the bytes that follow. `HLT` is in the table only under `HLT_MODE = halt`. -/
def Obligations.DecodeOfEncodeIsTheInstruction : Prop :=
  ∀ (m : HltMode) (i : Instr) (rest : List Byte), i.decodable m = true →
    decode m (encode i ++ rest) = .ok (i, rest)

/-- Whatever bytes decode are the encoding of what they decode to, followed by what is left: every
instruction has one encoding. -/
def Obligations.DecodedBytesAreTheEncoding : Prop :=
  ∀ (m : HltMode) (bytes rest : List Byte) (i : Instr), decode m bytes = .ok (i, rest) →
    bytes = encode i ++ rest ∧ i.decodable m = true

/-- R98 and R213: a running core that fetches an undecoded opcode consumes that byte, its
notification made, and raises `InvalidInstruction` with the opcode and its address, before any
operand fetch; and `InvalidInstruction` is raised for no other opcode. -/
def Obligations.UndecodedOpcodeRaisesInvalidInstruction : Prop :=
  (∀ s : State, s.running → s.regs.ip.toNat < s.memSize →
    UndecodedOpcode s.cfg.hltMode s.opcodeByte →
    step s = .next ((s.advanced 1 s.opcodeTold).withFault
      (.invalidInstruction s.opcodeByte s.regs.ip))) ∧
  (∀ (s t : State) (b : Byte) (a : Word), s.running → step s = .next t →
    t.fault = some (.invalidInstruction b a) →
    b = s.opcodeByte ∧ a = s.regs.ip ∧ UndecodedOpcode s.cfg.hltMode b)

/-! ## The step -/

/-- A step runs the decoded instruction: when the bytes at `ip` decode to `i` and its fetches are in
bounds, a running core's step is `exec i` after `ip` has moved past the instruction and the fetches
have been notified. -/
def Obligations.StepRunsTheDecodedInstruction : Prop :=
  ∀ (s : State) (i : Instr) (rest : List Byte), s.running →
    decode s.cfg.hltMode s.codeBytes = .ok (i, rest) → s.fetchable i.length →
    step s = exec i (s.afterFetch i.length) ∧
      (s.afterFetch i.length).regs.ip.toNat = (s.regs.ip.toNat + i.length) % 65536 ∧
      (s.afterFetch i.length).trace = s.trace ++ s.fetchTold i.length

/-- The spec's decision D6: a fetch out of bounds raises `MemoryOutOfBounds` and does not advance
`ip`; what was fetched before it stays fetched. The three fetch rows of the table of R215. -/
def Obligations.FetchOutOfBoundsRaises : Prop :=
  (∀ s : State, s.running → s.memSize ≤ s.regs.ip.toNat →
    step s = .next (s.withFault (.memoryOutOfBounds s.regs.ip.toNat .byte .read))) ∧
  (∀ s : State, s.running → s.regs.ip.toNat < s.memSize → FiveByteOpcode s.opcodeByte →
    s.memSize ≤ (s.regs.ip + 1#16).toNat + 1 →
    step s = .next ((s.advanced 1 s.opcodeTold).withFault
      (.memoryOutOfBounds (s.regs.ip + 1#16).toNat .word .read))) ∧
  (∀ s : State, s.running → s.regs.ip.toNat < s.memSize → FiveByteOpcode s.opcodeByte →
    (s.regs.ip + 1#16).toNat + 1 < s.memSize → s.memSize ≤ (s.regs.ip + 3#16).toNat + 1 →
    step s = .next ((s.advanced 3 (s.opcodeTold ++ s.operandTold (s.regs.ip + 1#16))).withFault
      (.memoryOutOfBounds (s.regs.ip + 3#16).toNat .word .read)))

/-- The spec's decision D8: on a core that is Halted or has a fatal condition latched, a step changes
nothing at all. -/
def Obligations.StoppedCoreDoesNothing : Prop :=
  ∀ s : State, s.run = .halted ∨ s.fault ≠ none → step s = .next s

/-- Every instruction and every step answers a next state: the entry of a fatal condition is one
(R214), and nothing is refused. That it is a next state is the model's reading, log entry 5. -/
def Obligations.EveryStepAnswersAState : Prop :=
  (∀ (i : Instr) (s : State), ∃ t, exec i s = .next t) ∧ ∀ s : State, ∃ t, step s = .next t

/-! ## The instructions -/

/-- R140: `NOP` is the byte 00, and has no effect: only `ip` has moved, and the fetch been notified. -/
def Obligations.NopHasNoEffect : Prop :=
  EncodedAs [0x00#8] .nop ∧ ∀ s : State, exec .nop s = .next s

/-- The spec's decision D7: `HLT` is the byte 01; under `HLT_MODE = halt` it halts the core, which
then does nothing more; under `HLT_MODE = invalid` it raises `InvalidInstruction` for the byte
before `ip`. -/
def Obligations.HltHaltsTheCore : Prop :=
  EncodedAs [0x01#8] .hlt ∧
  (∀ s : State, s.cfg.hltMode = .halt →
    exec .hlt s = .next { s with run := .halted } ∧
    step { s with run := .halted } = .next { s with run := .halted }) ∧
  (∀ s : State, s.cfg.hltMode = .invalid →
    exec .hlt s = .next (s.withFault (.invalidInstruction 0x01#8 (s.regs.ip - 1#16))))

/-- R150: the encoding of `ADD`; with two valid register addresses `acr` receives the sum modulo
65536 and nothing else changes; a bad first address is raised before the second is looked at, then
a bad second, and `acr` is not written. (`ip` read as an operand is the next instruction's address,
since `exec` runs after the fetches. That an odd address is bad is the spec's decision D2.) -/
def Obligations.AddWritesTheSumToAcr : Prop :=
  (∀ reg1 reg2 : Word,
    EncodedAs [0x02#8, hi8 reg1, lo8 reg1, hi8 reg2, lo8 reg2] (.add reg1 reg2)) ∧
  (∀ (s : State) (ra rb : RegId),
    exec (.add ra.offset rb.offset) s =
      .next (s.setReg .acr (BitVec.ofNat 16 (((s.reg ra).toNat + (s.reg rb).toNat) % 65536)))) ∧
  (∀ (s : State) (reg1 reg2 : Word), BadRegister reg1 →
    exec (.add reg1 reg2) s = .next (s.withFault (.invalidRegister (.offset reg1.toNat)))) ∧
  (∀ (s : State) (ra : RegId) (reg2 : Word), BadRegister reg2 →
    exec (.add ra.offset reg2) s = .next (s.withFault (.invalidRegister (.offset reg2.toNat))))

/-- R160: the encoding of `MOV_LIT_REG`; the register at a valid address receives the literal (a
write to `ip` is a jump); with a bad address no register is written and `InvalidRegister` is raised.
(That an odd address is bad is the spec's decision D2.) -/
def Obligations.MovLitRegWritesTheLiteral : Prop :=
  (∀ literal regAddress : Word,
    EncodedAs [0x10#8, hi8 literal, lo8 literal, hi8 regAddress, lo8 regAddress]
      (.movLitReg literal regAddress)) ∧
  (∀ (s : State) (literal : Word) (r : RegId),
    exec (.movLitReg literal r.offset) s = .next (s.setReg r literal)) ∧
  (∀ (s : State) (literal regAddress : Word), BadRegister regAddress →
    exec (.movLitReg literal regAddress) s =
      .next (s.withFault (.invalidRegister (.offset regAddress.toNat))))

/-- R161: the encoding of `MOV_REG_REG`; the destination receives the source's value; a bad source is
raised first, then a bad destination, and no register is written. (That an odd address is bad is
the spec's decision D2.) -/
def Obligations.MovRegRegCopiesARegister : Prop :=
  (∀ reg1 reg2 : Word,
    EncodedAs [0x11#8, hi8 reg1, lo8 reg1, hi8 reg2, lo8 reg2] (.movRegReg reg1 reg2)) ∧
  (∀ (s : State) (ra rb : RegId),
    exec (.movRegReg ra.offset rb.offset) s = .next (s.setReg rb (s.reg ra))) ∧
  (∀ (s : State) (reg1 reg2 : Word), BadRegister reg1 →
    exec (.movRegReg reg1 reg2) s = .next (s.withFault (.invalidRegister (.offset reg1.toNat)))) ∧
  (∀ (s : State) (ra : RegId) (reg2 : Word), BadRegister reg2 →
    exec (.movRegReg ra.offset reg2) s = .next (s.withFault (.invalidRegister (.offset reg2.toNat))))

/-- `MOV_REG_MEM` stores a word, high byte first, at any in-bounds address, odd or even, and the
device of the base address is told; a bad source address is raised first, then an out-of-bounds
destination, and nothing is written. The word width is the spec's decision D12, the bounds clause D6. -/
def Obligations.MovRegMemStoresAWord : Prop :=
  (∀ regAddress memAddress : Word,
    EncodedAs [0x12#8, hi8 regAddress, lo8 regAddress, hi8 memAddress, lo8 memAddress]
      (.movRegMem regAddress memAddress)) ∧
  (∀ (s : State) (r : RegId) (a : Word), a.toNat + 1 < s.memSize →
    ∃ t, exec (.movRegMem r.offset a) s = .next t ∧
      t.mem.read a.toNat = hi8 (s.reg r) ∧ t.mem.read (a.toNat + 1) = lo8 (s.reg r) ∧
      (∀ b, b ≠ a.toNat → b ≠ a.toNat + 1 → t.mem.read b = s.mem.read b) ∧
      t.regs = s.regs ∧ SameControl s t ∧
      t.trace = s.trace ++ told s.regions .write a.toNat (s.reg r)) ∧
  (∀ (s : State) (regAddress a : Word), BadRegister regAddress →
    exec (.movRegMem regAddress a) s =
      .next (s.withFault (.invalidRegister (.offset regAddress.toNat)))) ∧
  (∀ (s : State) (r : RegId) (a : Word), s.memSize ≤ a.toNat + 1 →
    exec (.movRegMem r.offset a) s = .next (s.withFault (.memoryOutOfBounds a.toNat .word .write)))

/-- `MOV_MEM_MEM` reads the source word whole and then writes the destination word, overlapping or
not; the read is told before the write; an out-of-bounds source is raised first with nothing done,
then an out-of-bounds destination with the read told and nothing written. The bounds clauses rest
on the spec's decision D6. -/
def Obligations.MovMemMemCopiesAWord : Prop :=
  (∀ memAddr1 memAddr2 : Word,
    EncodedAs [0x13#8, hi8 memAddr1, lo8 memAddr1, hi8 memAddr2, lo8 memAddr2]
      (.movMemMem memAddr1 memAddr2)) ∧
  (∀ (s : State) (a b : Word), a.toNat + 1 < s.memSize → b.toNat + 1 < s.memSize →
    ∃ t, exec (.movMemMem a b) s = .next t ∧
      t.mem.read b.toNat = s.mem.read a.toNat ∧
      t.mem.read (b.toNat + 1) = s.mem.read (a.toNat + 1) ∧
      (∀ c, c ≠ b.toNat → c ≠ b.toNat + 1 → t.mem.read c = s.mem.read c) ∧
      t.regs = s.regs ∧ SameControl s t ∧
      t.trace = s.trace ++ told s.regions .read a.toNat (s.mem.readWord a.toNat) ++
        told s.regions .write b.toNat (s.mem.readWord a.toNat)) ∧
  (∀ (s : State) (a b : Word), s.memSize ≤ a.toNat + 1 →
    exec (.movMemMem a b) s = .next (s.withFault (.memoryOutOfBounds a.toNat .word .read))) ∧
  (∀ (s : State) (a b : Word), a.toNat + 1 < s.memSize → s.memSize ≤ b.toNat + 1 →
    ∃ t, exec (.movMemMem a b) s = .next (t.withFault (.memoryOutOfBounds b.toNat .word .write)) ∧
      t = { s with trace := s.trace ++ told s.regions .read a.toNat (s.mem.readWord a.toNat) })

/-- `MOV_MEM_REG` loads the big-endian word at an in-bounds address into the register, and the device
of the base address is told; an out-of-bounds source is raised first; a bad register is raised after
the read and its notification, and no register is written. The word width is the spec's decision
D12, the bounds clause D6, the order D10. -/
def Obligations.MovMemRegLoadsAWord : Prop :=
  (∀ memAddress regAddress : Word,
    EncodedAs [0x14#8, hi8 memAddress, lo8 memAddress, hi8 regAddress, lo8 regAddress]
      (.movMemReg memAddress regAddress)) ∧
  (∀ (s : State) (a : Word) (r : RegId), a.toNat + 1 < s.memSize →
    ∃ t, exec (.movMemReg a r.offset) s = .next t ∧
      t.reg r = joinBytes (s.mem.read a.toNat) (s.mem.read (a.toNat + 1)) ∧
      (∀ q, q ≠ r → t.reg q = s.reg q) ∧ t.mem = s.mem ∧ SameControl s t ∧
      t.trace = s.trace ++ told s.regions .read a.toNat (s.mem.readWord a.toNat)) ∧
  (∀ (s : State) (a regAddress : Word), s.memSize ≤ a.toNat + 1 →
    exec (.movMemReg a regAddress) s = .next (s.withFault (.memoryOutOfBounds a.toNat .word .read))) ∧
  (∀ (s : State) (a regAddress : Word), a.toNat + 1 < s.memSize → BadRegister regAddress →
    ∃ t, exec (.movMemReg a regAddress) s =
        .next (t.withFault (.invalidRegister (.offset regAddress.toNat))) ∧
      t = { s with trace := s.trace ++ told s.regions .read a.toNat (s.mem.readWord a.toNat) })

/-- An instruction with no fatal condition latched before it raises one exactly when one of its
operands is not valid for its kind (the validity column of R94, whose odd addresses are the spec's
decision D2 and whose bounds D6), and `HLT` exactly when `HLT_MODE = invalid` (D7). -/
def Obligations.InstructionRaisesExactlyWhenIllFormed : Prop :=
  ∀ (i : Instr) (s : State), s.fault = none →
    ∃ t, exec i s = .next t ∧ (t.fault = none ↔ i.wellFormed s.cfg = true)

/-! ## Frames -/

/-- The frame of the forms that store nothing to memory and write a register: every register but the
destination (`acr` for `ADD`, the register at the last operand's address for the moves), every byte
of memory, the parameters, the regions, `run` and the trace (but for the read of `MOV_MEM_REG`) are
unchanged; with valid operands the latch too; with invalid ones no register is written. What holds
for invalid operands, and the read told or not told before, rests on the spec's decisions D2 (odd
addresses, log entry 14), D6 (bounds, log entry 12) and D10 (the order, log entry 15). -/
def Obligations.RegisterFormsFrame : Prop :=
  (∀ (s t : State) (reg1 reg2 : Word), exec (.add reg1 reg2) s = .next t →
    (∀ q, q ≠ .acr → t.reg q = s.reg q) ∧ (∀ b, t.mem.read b = s.mem.read b) ∧
    t.cfg = s.cfg ∧ t.regions = s.regions ∧ t.run = s.run ∧ t.trace = s.trace ∧
    ((Instr.add reg1 reg2).wellFormed s.cfg = true → t.fault = s.fault) ∧
    ((Instr.add reg1 reg2).wellFormed s.cfg = false → t.regs = s.regs)) ∧
  (∀ (s t : State) (literal regAddress : Word), exec (.movLitReg literal regAddress) s = .next t →
    (∀ q : RegId, q.offset ≠ regAddress → t.reg q = s.reg q) ∧ (∀ b, t.mem.read b = s.mem.read b) ∧
    t.cfg = s.cfg ∧ t.regions = s.regions ∧ t.run = s.run ∧ t.trace = s.trace ∧
    ((Instr.movLitReg literal regAddress).wellFormed s.cfg = true → t.fault = s.fault) ∧
    ((Instr.movLitReg literal regAddress).wellFormed s.cfg = false → t.regs = s.regs)) ∧
  (∀ (s t : State) (reg1 reg2 : Word), exec (.movRegReg reg1 reg2) s = .next t →
    (∀ q : RegId, q.offset ≠ reg2 → t.reg q = s.reg q) ∧ (∀ b, t.mem.read b = s.mem.read b) ∧
    t.cfg = s.cfg ∧ t.regions = s.regions ∧ t.run = s.run ∧ t.trace = s.trace ∧
    ((Instr.movRegReg reg1 reg2).wellFormed s.cfg = true → t.fault = s.fault) ∧
    ((Instr.movRegReg reg1 reg2).wellFormed s.cfg = false → t.regs = s.regs)) ∧
  (∀ (s t : State) (memAddress regAddress : Word), exec (.movMemReg memAddress regAddress) s = .next t →
    (∀ q : RegId, q.offset ≠ regAddress → t.reg q = s.reg q) ∧ (∀ b, t.mem.read b = s.mem.read b) ∧
    t.cfg = s.cfg ∧ t.regions = s.regions ∧ t.run = s.run ∧
    t.trace = s.trace ++
      (if memAddress.toNat + 1 < s.memSize then
        told s.regions .read memAddress.toNat (s.mem.readWord memAddress.toNat) else []) ∧
    ((Instr.movMemReg memAddress regAddress).wellFormed s.cfg = true → t.fault = s.fault) ∧
    ((Instr.movMemReg memAddress regAddress).wellFormed s.cfg = false → t.regs = s.regs))

/-- The frame of the forms that store a word: every register, the parameters, the regions and `run`
are unchanged, and every byte of memory outside the two bytes at the destination operand's address,
the effective address of the store (R165); with valid operands the latch too; with invalid ones all
of memory is unchanged, and for `MOV_REG_MEM` nobody is told. What holds for invalid operands rests
on the spec's decisions D2 (odd addresses, log entry 14), D6 (no effect out of bounds, log entry 12)
and D10 (the order, log entry 15). -/
def Obligations.StoreFormsFrame : Prop :=
  (∀ (s t : State) (regAddress memAddress : Word), exec (.movRegMem regAddress memAddress) s = .next t →
    t.regs = s.regs ∧
    (∀ b, b ≠ memAddress.toNat → b ≠ memAddress.toNat + 1 → t.mem.read b = s.mem.read b) ∧
    t.cfg = s.cfg ∧ t.regions = s.regions ∧ t.run = s.run ∧
    ((Instr.movRegMem regAddress memAddress).wellFormed s.cfg = true → t.fault = s.fault) ∧
    ((Instr.movRegMem regAddress memAddress).wellFormed s.cfg = false →
      t.trace = s.trace ∧ ∀ b, t.mem.read b = s.mem.read b)) ∧
  (∀ (s t : State) (memAddr1 memAddr2 : Word), exec (.movMemMem memAddr1 memAddr2) s = .next t →
    t.regs = s.regs ∧
    (∀ b, b ≠ memAddr2.toNat → b ≠ memAddr2.toNat + 1 → t.mem.read b = s.mem.read b) ∧
    t.cfg = s.cfg ∧ t.regions = s.regions ∧ t.run = s.run ∧
    ((Instr.movMemMem memAddr1 memAddr2).wellFormed s.cfg = true → t.fault = s.fault) ∧
    ((Instr.movMemMem memAddr1 memAddr2).wellFormed s.cfg = false →
      ∀ b, t.mem.read b = s.mem.read b))

/-! ## The Register File -/

/-- The register addresses of the reference instance and what names each register: the spec's
decision D1 for the numbers, D18 for exact names. -/
def Obligations.RegisterAddressesAndNames : Prop :=
  RegId.ofOffset 0 = some .ip ∧ RegId.ofOffset 2 = some .acr ∧ RegId.ofOffset 4 = some .r1 ∧
  RegId.ofOffset 6 = some .r2 ∧ RegId.ofOffset 8 = some .r3 ∧ RegId.ofOffset 10 = some .r4 ∧
  RegId.ofName "ip" = some .ip ∧ RegId.ofName "acr" = some .acr ∧ RegId.ofName "r1" = some .r1 ∧
  RegId.ofName "r2" = some .r2 ∧ RegId.ofName "r3" = some .r3 ∧ RegId.ofName "r4" = some .r4 ∧
  (∀ o : Nat, RegId.ofOffset o = none ↔ o % 2 = 1 ∨ 10 < o) ∧
  (∀ n : String, RegId.ofName n = none ↔ n ∉ ["ip", "acr", "r1", "r2", "r3", "r4"])

/-- R28: a write to a valid register address changes exactly that register and nothing else, and a
read of it then returns the value; a write to any other address raises `InvalidRegister` and
changes nothing. -/
def Obligations.RegisterWriteThenReadReturnsTheValue : Prop :=
  (∀ (s : State) (r : RegId) (v : Word), ∃ t,
    writeReg (.offset (2 * r.index)) v s = .done () t ∧
    readReg (.offset (2 * r.index)) t = .done v t ∧
    (∀ q, q ≠ r → t.reg q = s.reg q) ∧ t.mem = s.mem ∧ t.trace = s.trace ∧ SameControl s t) ∧
  (∀ (s : State) (o : Nat) (v : Word), o % 2 = 1 ∨ 10 < o →
    writeReg (.offset o) v s = .raised (s.withFault (.invalidRegister (.offset o))))

/-! ## The bus -/

/-- R80: for every in-bounds address and every value, a word written is the word read back; the byte
split is exact, high byte at the address; and every other byte is as before. -/
def Obligations.WordStoreThenLoadReturnsTheValue : Prop :=
  ∀ (s : State) (a : Nat) (v : Word), a + 1 < s.memSize →
    ∃ t u, setWord a v s = .done () t ∧ getWord a t = .done v u ∧
      (t.mem.read a).toNat = v.toNat / 256 ∧ (t.mem.read (a + 1)).toNat = v.toNat % 256 ∧
      ∀ b, b ≠ a → b ≠ a + 1 → t.mem.read b = s.mem.read b

/-- The four accessors in bounds: what is read is the raw memory content, what is written reaches
memory, at most one notification is made, to the device found for the base address, with a byte
zero-extended (the spec's decision D13); nothing else changes. -/
def Obligations.InBoundsAccessesAndTheirNotifications : Prop :=
  (∀ (s : State) (a : Nat), a < s.memSize →
    getByte a s = .done (s.mem.read a)
      { s with trace := s.trace ++ told s.regions .read a ((s.mem.read a).setWidth 16) }) ∧
  (∀ (s : State) (a : Nat), a + 1 < s.memSize →
    getWord a s = .done (joinBytes (s.mem.read a) (s.mem.read (a + 1)))
      { s with
        trace := s.trace ++ told s.regions .read a (joinBytes (s.mem.read a) (s.mem.read (a + 1))) }) ∧
  (∀ (s : State) (a : Nat) (v : Byte), a < s.memSize →
    ∃ t, setByte a v s = .done () t ∧ t.mem.read a = v ∧
      (∀ b, b ≠ a → t.mem.read b = s.mem.read b) ∧ t.regs = s.regs ∧ SameControl s t ∧
      t.trace = s.trace ++ told s.regions .write a (v.setWidth 16)) ∧
  (∀ (s : State) (a : Nat) (v : Word), a + 1 < s.memSize →
    ∃ t, setWord a v s = .done () t ∧ t.mem.read a = hi8 v ∧ t.mem.read (a + 1) = lo8 v ∧
      (∀ b, b ≠ a → b ≠ a + 1 → t.mem.read b = s.mem.read b) ∧ t.regs = s.regs ∧ SameControl s t ∧
      t.trace = s.trace ++ told s.regions .write a v)

/-- The spec's decision D6: an access out of bounds raises `MemoryOutOfBounds` with its address,
width and kind, before any effect: no byte read or written, nobody notified. -/
def Obligations.OutOfBoundsAccessHasNoEffect : Prop :=
  (∀ (s : State) (a : Nat), s.memSize ≤ a →
    getByte a s = .raised (s.withFault (.memoryOutOfBounds a .byte .read)) ∧
    ∀ v, setByte a v s = .raised (s.withFault (.memoryOutOfBounds a .byte .write))) ∧
  (∀ (s : State) (a : Nat), s.memSize ≤ a + 1 →
    getWord a s = .raised (s.withFault (.memoryOutOfBounds a .word .read)) ∧
    ∀ v, setWord a v s = .raised (s.withFault (.memoryOutOfBounds a .word .write)))

/-- R66: `findRegion` answers the first region in head-first order that contains the address, and
none exactly when no region does; containment is inclusive at both ends; and what an access tells is
one notification to the device of that region, or nothing where there is none. -/
def Obligations.FirstContainingRegionAnswers : Prop :=
  (∀ (regions : List Region) (a : Nat) (r : Region), findRegion regions a = some r ↔
    ∃ before after, regions = before ++ r :: after ∧ (r.first ≤ a ∧ a ≤ r.last) ∧
      ∀ q ∈ before, ¬ (q.first ≤ a ∧ a ≤ q.last)) ∧
  (∀ (regions : List Region) (a : Nat), findRegion regions a = none ↔
    ∀ q ∈ regions, ¬ (q.first ≤ a ∧ a ≤ q.last)) ∧
  (∀ (regions : List Region) (kind : AccessKind) (a : Nat) (v : Word),
    (∀ r, findRegion regions a = some r → told regions kind a v = [⟨r.dev, kind, a, v⟩]) ∧
    (findRegion regions a = none → told regions kind a v = []))

/-- In the setup phase `map` puts the region at the head of the search order, so that it answers for
every address of its range, the earlier regions still answer for all others, and nothing else
changes. The host's `step()` runs the core's step and begins the executing phase, in which `map` is
refused. The refusal is the treatment of 93_implementation_defined.md U3, and that any `step()` call
ends the setup phase is the model's choice, log entry 6. -/
def Obligations.MapShadowsEarlierRegions : Prop :=
  (∀ (x : Session) (dev : DeviceId) (first last : Nat), x.phase = .setup →
    ∃ s, x.call (.map dev first last) = .next (⟨s, .setup⟩, .nothing) ∧
      { x.core with regions := s.regions } = s ∧ s.regions = ⟨dev, first, last⟩ :: x.core.regions ∧
      (∀ a, first ≤ a → a ≤ last → findRegion s.regions a = some ⟨dev, first, last⟩) ∧
      (∀ a, a < first ∨ last < a → findRegion s.regions a = findRegion x.core.regions a)) ∧
  (∀ (x : Session) (t : State), step x.core = .next t →
    x.call .step = .next (⟨t, .executing⟩, .nothing)) ∧
  (∀ (x : Session) (dev : DeviceId) (first last : Nat), x.phase = .executing →
    x.call (.map dev first last) = .refused .mapAfterSetup)

/-- What a step adds to the trace: at most five notifications at its end (one opcode fetch, two
operand fetches, a data read, a data write), each to the device of the region that answers for its
address; so an access outside every mapped range notifies no device. -/
def Obligations.StepNotifiesOnlyMappedAddresses : Prop :=
  ∀ s t : State, step s = .next t →
    ∃ notes, t.trace = s.trace ++ notes ∧ notes.length ≤ 5 ∧
      ∀ n ∈ notes, ∃ r, findRegion s.regions n.address = some r ∧ n.dev = r.dev

/-- Devices are passive: two cores that differ only in their regions and in what the devices have
been told step to cores that differ only in these. No device and no mapping can influence what the
program computes. -/
def Obligations.DevicesCannotInfluenceTheCore : Prop :=
  ∀ s t s' t' : State, SameButDevices s t → step s = .next s' → step t = .next t' →
    SameButDevices s' t'

/-! ## Whole-machine rules -/

/-- Every step keeps the invariant: memory in canonical form with no byte at or beyond `MEM_SIZE`. -/
def Obligations.StepKeepsTheInvariant : Prop :=
  ∀ s t : State, s.Inv → step s = .next t → t.Inv

/-- The state after reset has the invariant, and so has every construction with a memory that has it. -/
def Obligations.ResetHasTheInvariant : Prop :=
  State.reset.Inv ∧
  ∀ (cfg : Config) (f : RegFile) (m : Memory), m.wf → (∀ c ∈ m, c.1 < cfg.memSize.val) →
    (State.construct cfg f m).Inv

/-- The parameters and the regions never change under a step, a latched fatal condition stays as it
is, and a Halted core stays Halted. -/
def Obligations.StepKeepsParametersRegionsAndStops : Prop :=
  ∀ s t : State, step s = .next t →
    t.cfg = s.cfg ∧ t.regions = s.regions ∧ (∀ c, s.fault = some c → t.fault = some c) ∧
    (s.run = .halted → t.run = .halted)

/-- The only transition from Running to Halted is made by the opcode 0x01 under `HLT_MODE = halt`
(the spec's decision D7). -/
def Obligations.OnlyHltHalts : Prop :=
  ∀ s t : State, s.run = .running → step s = .next t → t.run = .halted →
    s.fault = none ∧ s.regs.ip.toNat < s.memSize ∧ s.opcodeByte = 0x01#8 ∧ s.cfg.hltMode = .halt

/-- Who changes a register other than `ip` in a step: `acr` by `ADD`, or any of them as the
destination operand of `MOV_LIT_REG`, `MOV_REG_REG` or `MOV_MEM_REG`. -/
def Obligations.RegistersChangeOnlyAsDestinations : Prop :=
  ∀ (s t : State) (r : RegId), r ≠ .ip → step s = .next t → t.reg r ≠ s.reg r →
    s.fetchable 5 ∧
    ((r = .acr ∧ s.opcodeByte = 0x02#8) ∨
      ((s.opcodeByte = 0x10#8 ∨ s.opcodeByte = 0x11#8 ∨ s.opcodeByte = 0x14#8) ∧
        s.operand2 = r.offset))

/-- Who changes a byte of memory in a step: `MOV_REG_MEM` and `MOV_MEM_MEM`, and only the two bytes at
the address their second operand gives. -/
def Obligations.MemoryChangesOnlyByStores : Prop :=
  ∀ (s t : State) (a : Nat), step s = .next t → t.mem.read a ≠ s.mem.read a →
    s.fetchable 5 ∧ (s.opcodeByte = 0x12#8 ∨ s.opcodeByte = 0x13#8) ∧
    (a = s.operand2.toNat ∨ a = s.operand2.toNat + 1)

/-- Where `ip` is after a step that ends with no fatal condition: past the instruction, or, when the
destination register address is 0x0000, at the value written, which is the literal, the source
register (`ip` itself read as the next instruction's address) or the word loaded. This is what the
spec derives in R127 (decisions D1 and D10). -/
def Obligations.ControlMovesByFetchOrByWritingIp : Prop :=
  ∀ s t : State, s.running → step s = .next t → t.fault = none →
    ((s.opcodeByte = 0x00#8 ∨ s.opcodeByte = 0x01#8) ∧ t.regs.ip = s.regs.ip + 1#16) ∨
    ((s.opcodeByte = 0x02#8 ∨ s.opcodeByte = 0x12#8 ∨ s.opcodeByte = 0x13#8) ∧
      t.regs.ip = s.regs.ip + 5#16) ∨
    ((s.opcodeByte = 0x10#8 ∨ s.opcodeByte = 0x11#8 ∨ s.opcodeByte = 0x14#8) ∧
      s.operand2 ≠ 0x0000#16 ∧ t.regs.ip = s.regs.ip + 5#16) ∨
    (s.opcodeByte = 0x10#8 ∧ s.operand2 = 0x0000#16 ∧ t.regs.ip = s.operand1) ∨
    (s.opcodeByte = 0x11#8 ∧ s.operand2 = 0x0000#16 ∧
      ∃ r : RegId, s.operand1 = r.offset ∧
        t.regs.ip = if r = .ip then s.regs.ip + 5#16 else s.reg r) ∨
    (s.opcodeByte = 0x14#8 ∧ s.operand2 = 0x0000#16 ∧
      t.regs.ip = s.mem.readWord s.operand1.toNat)

/-- A step that raises a fatal condition has written no destination: every byte of memory, every
register but `ip`, `run`, the parameters and the regions are as before, and `ip` stands where the
table of R215 (derived by the spec, decisions D6 and D10) says for that condition. -/
def Obligations.FaultingStepWritesNoDestination : Prop :=
  ∀ (s t : State) (c : FatalCondition), s.fault = none → step s = .next t → t.fault = some c →
    (∀ a, t.mem.read a = s.mem.read a) ∧ (∀ r, r ≠ .ip → t.reg r = s.reg r) ∧
    t.run = s.run ∧ t.cfg = s.cfg ∧ t.regions = s.regions ∧
    match c with
    | .invalidInstruction b a => t.regs.ip = s.regs.ip + 1#16 ∧ a = s.regs.ip ∧ b = s.opcodeByte
    | .invalidRegister _ => t.regs.ip = s.regs.ip + 5#16
    | .memoryOutOfBounds a .byte kind => t.regs.ip = s.regs.ip ∧ a = s.regs.ip.toNat ∧ kind = .read
    | .memoryOutOfBounds _ .word .write => t.regs.ip = s.regs.ip + 5#16
    | .memoryOutOfBounds a .word .read =>
      (t.regs.ip = s.regs.ip + 1#16 ∧ a = (s.regs.ip + 1#16).toNat) ∨
      (t.regs.ip = s.regs.ip + 3#16 ∧ a = (s.regs.ip + 3#16).toNat) ∨
      (t.regs.ip = s.regs.ip + 5#16 ∧ a = s.operand1.toNat)

/-! ## Reset and the host -/

/-- Construction gives the reset state for every memory size from 1 to 65536 and refuses any other
size (the spec's decision D5): Running, `ip` and every register 0, every byte 0, no region, no
fatal condition, an empty trace. The zero registers and memory are the spec's decisions D3 and D4.
`State.reset` is the construction with 65536 bytes (the model's choice, log entry 1). -/
def Obligations.ConstructionGivesTheResetState : Prop :=
  (∀ (n : Nat) (m : HltMode), 1 ≤ n → n ≤ 65536 →
    ∃ s, Session.construct n m = .next ⟨s, .setup⟩ ∧ s.memSize = n ∧ s.cfg.hltMode = m ∧
      s.run = .running ∧ (∀ r, s.reg r = 0x0000#16) ∧ (∀ a, s.mem.read a = 0x00#8) ∧
      s.regions = [] ∧ s.fault = none ∧ s.trace = []) ∧
  (∀ (n : Nat) (m : HltMode), n = 0 ∨ 65536 < n →
    Session.construct n m = .refused .memSizeOutOfRange) ∧
  Session.construct 65536 .halt = .next ⟨State.reset, .setup⟩

/-- The register accessors of the host: a write by name or offset is read back by either, changes no
other register, no memory and no trace; a bad id latches `InvalidRegister` unless a fatal condition
is latched already (the choice of 90_conflicts.md C9), and changes nothing else. That a write's reply
is `nothing` is the model's choice, log entry 19: the spec leaves open what it returns
(92_eei_decisions.md D24, 93_implementation_defined.md U13). -/
def Obligations.HostRegisterAccessors : Prop :=
  (∀ (x : Session) (id id' : RegRef) (r : RegId) (v : Word),
    RegId.ofRef id = some r → RegId.ofRef id' = some r →
    ∃ y, x.call (.writeReg id v) = .next (y, .nothing) ∧ y.call (.readReg id') = .next (y, .word v) ∧
      (∀ q, q ≠ r → y.core.reg q = x.core.reg q) ∧ y.core.mem = x.core.mem ∧
      y.core.trace = x.core.trace ∧ SameControl x.core y.core ∧ y.phase = x.phase) ∧
  (∀ (x : Session) (id : RegRef) (v : Word), RegId.ofRef id = none →
    x.call (.readReg id) = .next (⟨x.core.withFault (.invalidRegister id), x.phase⟩, .nothing) ∧
    x.call (.writeReg id v) = .next (⟨x.core.withFault (.invalidRegister id), x.phase⟩, .nothing))

/-- `loadBlock` in the setup phase copies a block that fits, byte by byte, leaves every other byte and
everything else alone, and notifies nobody (the spec's decision D15); a block that does not fit is
refused (93_implementation_defined.md U2), and so is `loadBlock` in the executing phase and right
after a step (U3; that any `step()` call ends the setup phase is the model's choice, log entry 6). -/
def Obligations.LoadBlockCopiesTheBlock : Prop :=
  (∀ (x : Session) (bytes : List Byte) (start : Nat), x.phase = .setup →
    start + bytes.length ≤ x.core.memSize →
    ∃ s, x.call (.loadBlock bytes start) = .next (⟨s, .setup⟩, .nothing) ∧
      (∀ (k : Nat) (b : Byte), bytes[k]? = some b → s.mem.read (start + k) = b) ∧
      (∀ a, a < start ∨ start + bytes.length ≤ a → s.mem.read a = x.core.mem.read a) ∧
      s.regs = x.core.regs ∧ s.trace = x.core.trace ∧ SameControl x.core s) ∧
  (∀ (x : Session) (bytes : List Byte) (start : Nat), x.phase = .setup →
    x.core.memSize < start + bytes.length →
    x.call (.loadBlock bytes start) = .refused .blockDoesNotFit) ∧
  (∀ (x : Session) (bytes : List Byte) (start : Nat), x.phase = .executing →
    x.call (.loadBlock bytes start) = .refused .loadBlockAfterSetup) ∧
  (∀ (x : Session) (t : State) (bytes : List Byte) (start : Nat), step x.core = .next t →
    ∃ y, x.call .step = .next (y, .nothing) ∧ y.core = t ∧
      y.call (.loadBlock bytes start) = .refused .loadBlockAfterSetup)

/-- Once execution has begun, whatever sequence of operations the host performs: the regions and the
parameters stay as they are, a latched fatal condition stays as it is, and a Halted core stays
Halted. -/
def Obligations.NoHostOperationUndoesAStopOrAMapping : Prop :=
  ∀ (x y : Session) (ops : List HostOp), x.phase = .executing → x.calls ops = .next y →
    y.phase = .executing ∧ y.core.regions = x.core.regions ∧ y.core.cfg = x.core.cfg ∧
    (∀ c, x.core.fault = some c → y.core.fault = some c) ∧
    (x.core.run = .halted → y.core.run = .halted)

/-- Every core a host can reach, from any construction by any sequence of operations, has the
invariant and the memory size it was constructed with. -/
def Obligations.ReachableCoresHaveTheInvariant : Prop :=
  ∀ (n : Nat) (m : HltMode) (x y : Session) (ops : List HostOp),
    Session.construct n m = .next x → x.calls ops = .next y → y.core.Inv ∧ y.core.memSize = n

/-- R204: the reference display renders, for a write to its device, the low 8 bits of the value at
`x = address mod width`, `y = (address / width) mod height` of the absolute address; a read, or a
notification of another device, renders nothing. -/
def Obligations.DisplayRendersTheLowByteOfWrites : Prop :=
  (∀ (d : Display) (trace : List Notification) (a : Nat) (v : Word),
    d.render (trace ++ [⟨d.dev, .write, a, v⟩]) =
      d.render trace ++
        [⟨a % d.width.val, a / d.width.val % d.height.val, BitVec.ofNat 8 (v.toNat % 256)⟩]) ∧
  (∀ (d : Display) (trace : List Notification) (n : Notification), n.kind = .read ∨ n.dev ≠ d.dev →
    d.render (trace ++ [n]) = d.render trace)

/-! ## The host's bus accessors -/

/-- The bus accessors of the host are those of the core, in every phase: in bounds a read answers the
raw memory content and a write reaches memory, the device of the base address is told, and nothing
else changes; out of bounds `MemoryOutOfBounds` is raised with no other effect and no value (the
spec's decision D6). A byte is told zero-extended (D13). The phase stays as it is; that the accessors
work on a stopped core too is the model's reading, log entry 20. -/
def Obligations.HostBusAccessors : Prop :=
  (∀ (x : Session) (a : Nat), a < x.core.memSize →
    x.call (.getByte a) = .next (⟨{ x.core with
      trace := x.core.trace ++ told x.core.regions .read a ((x.core.mem.read a).setWidth 16) },
      x.phase⟩, .byte (x.core.mem.read a))) ∧
  (∀ (x : Session) (a : Nat), a + 1 < x.core.memSize →
    x.call (.getWord a) = .next (⟨{ x.core with
      trace := x.core.trace ++
        told x.core.regions .read a (joinBytes (x.core.mem.read a) (x.core.mem.read (a + 1))) },
      x.phase⟩, .word (joinBytes (x.core.mem.read a) (x.core.mem.read (a + 1))))) ∧
  (∀ (x : Session) (a : Nat) (v : Byte), a < x.core.memSize →
    ∃ t, x.call (.setByte a v) = .next (⟨t, x.phase⟩, .nothing) ∧ t.mem.read a = v ∧
      (∀ b, b ≠ a → t.mem.read b = x.core.mem.read b) ∧ t.regs = x.core.regs ∧
      SameControl x.core t ∧
      t.trace = x.core.trace ++ told x.core.regions .write a (v.setWidth 16)) ∧
  (∀ (x : Session) (a : Nat) (v : Word), a + 1 < x.core.memSize →
    ∃ t, x.call (.setWord a v) = .next (⟨t, x.phase⟩, .nothing) ∧
      t.mem.read a = hi8 v ∧ t.mem.read (a + 1) = lo8 v ∧
      (∀ b, b ≠ a → b ≠ a + 1 → t.mem.read b = x.core.mem.read b) ∧ t.regs = x.core.regs ∧
      SameControl x.core t ∧ t.trace = x.core.trace ++ told x.core.regions .write a v) ∧
  (∀ (x : Session) (a : Nat), x.core.memSize ≤ a →
    x.call (.getByte a) =
      .next (⟨x.core.withFault (.memoryOutOfBounds a .byte .read), x.phase⟩, .nothing) ∧
    ∀ v, x.call (.setByte a v) =
      .next (⟨x.core.withFault (.memoryOutOfBounds a .byte .write), x.phase⟩, .nothing)) ∧
  (∀ (x : Session) (a : Nat), x.core.memSize ≤ a + 1 →
    x.call (.getWord a) =
      .next (⟨x.core.withFault (.memoryOutOfBounds a .word .read), x.phase⟩, .nothing) ∧
    ∀ v, x.call (.setWord a v) =
      .next (⟨x.core.withFault (.memoryOutOfBounds a .word .write), x.phase⟩, .nothing))
end

