-- ==== Sys2Proof/Laws/Bytes.lean ====
section
/-! SUPPORT. Byte order: splitting a word and joining its bytes are inverse. -/

namespace Sys2Proof

theorem joinBytes_toNat (a b : Byte) : (joinBytes a b).toNat = a.toNat * 256 + b.toNat := by
  have hb := b.isLt
  have h : (joinBytes a b).toNat = a.toNat <<< 8 ||| b.toNat := BitVec.toNat_append a b
  rw [h, ← Nat.shiftLeft_add_eq_or_of_lt hb, Nat.shiftLeft_eq]

theorem hi8_toNat (v : Word) : (hi8 v).toNat = v.toNat / 256 := by
  have hv := v.isLt
  unfold hi8
  rw [BitVec.extractLsb'_toNat, Nat.shiftRight_eq_div_pow]
  omega

theorem lo8_toNat (v : Word) : (lo8 v).toNat = v.toNat % 256 := by
  unfold lo8
  rw [BitVec.extractLsb'_toNat, Nat.shiftRight_eq_div_pow]
  simp

@[simp] theorem joinBytes_hi8_lo8 (v : Word) : joinBytes (hi8 v) (lo8 v) = v := by
  apply BitVec.eq_of_toNat_eq
  rw [joinBytes_toNat, hi8_toNat, lo8_toNat]
  omega

@[simp] theorem hi8_joinBytes (a b : Byte) : hi8 (joinBytes a b) = a := by
  apply BitVec.eq_of_toNat_eq
  have hb := b.isLt
  rw [hi8_toNat, joinBytes_toNat]
  omega

@[simp] theorem lo8_joinBytes (a b : Byte) : lo8 (joinBytes a b) = b := by
  apply BitVec.eq_of_toNat_eq
  have hb := b.isLt
  rw [lo8_toNat, joinBytes_toNat]
  omega

end Sys2Proof
end

