-- ==== Sys2Proof/Laws/Decode.lean ====
section
/-! SUPPORT. What the opcode lookup answers. -/

namespace Sys2Proof

/-- The lookup answers a row exactly when the byte is the row's and the row is in the table. -/
theorem Opcode.ofByte_eq_some {m : HltMode} {b : Byte} {op : Opcode} :
    Opcode.ofByte m b = some op ↔ b = op.byte ∧ op.inTable m = true := by
  constructor
  · intro h
    have h := List.find?_some h
    simp only [Bool.and_eq_true, beq_iff_eq] at h
    exact ⟨h.1.symm, h.2⟩
  · rintro ⟨rfl, h⟩
    rcases op with op | op <;> cases op <;> cases m <;> first | rfl | cases h

/-- The lookup answers nothing exactly on the undecoded bytes of R98. -/
theorem Opcode.ofByte_eq_none {m : HltMode} {b : Byte} :
    Opcode.ofByte m b = none ↔ Machine.UndecodedOpcode m b := by
  constructor
  · intro h
    by_contra hu
    have hb := b.isLt
    simp only [Machine.UndecodedOpcode, not_or, not_and, Nat.not_le] at hu
    obtain ⟨h1, h2, h3⟩ := hu
    have key : ∀ op : Opcode, b = op.byte → op.inTable m = true → False := fun op h1 h2 => by
      rw [Opcode.ofByte_eq_some.mpr ⟨h1, h2⟩] at h
      cases h
    have hv : b.toNat = 0x00 ∨ b.toNat = 0x01 ∨ b.toNat = 0x02 ∨ b.toNat = 0x10 ∨ b.toNat = 0x11 ∨
        b.toNat = 0x12 ∨ b.toNat = 0x13 ∨ b.toNat = 0x14 := by omega
    have hm : b = 0x01#8 → m = .halt := fun hb => by
      cases m
      · rfl
      · exact absurd rfl (h3 hb)
    rcases hv with h | h | h | h | h | h | h | h
    · exact key (.z .nop) (BitVec.eq_of_toNat_eq h) rfl
    · have hb : b = 0x01#8 := BitVec.eq_of_toNat_eq h
      exact key (.z .hlt) hb (by rw [hm hb]; rfl)
    · exact key (.w2 .add) (BitVec.eq_of_toNat_eq h) rfl
    · exact key (.w2 .movLitReg) (BitVec.eq_of_toNat_eq h) rfl
    · exact key (.w2 .movRegReg) (BitVec.eq_of_toNat_eq h) rfl
    · exact key (.w2 .movRegMem) (BitVec.eq_of_toNat_eq h) rfl
    · exact key (.w2 .movMemMem) (BitVec.eq_of_toNat_eq h) rfl
    · exact key (.w2 .movMemReg) (BitVec.eq_of_toNat_eq h) rfl
  · intro hu
    cases h : Opcode.ofByte m b with
    | none => rfl
    | some op =>
      obtain ⟨rfl, hm⟩ := Opcode.ofByte_eq_some.mp h
      rcases op with op | op <;> cases op <;> cases m <;>
        first | exact absurd hu (by decide) | cases hm

end Sys2Proof
end

