-- ==== Sys2Proof/Laws/Memory.lean ====
section
/-! SUPPORT. The laws of memory: a read after a write, for every memory; and every memory operation
keeps the canonical form. -/

namespace Sys2Proof.Machine

/-! ## Reads -/

theorem Memory.read_erase (m : Memory) (a b : Nat) :
    (m.erase a).read b = if b = a then Config.memInit else m.read b := by
  induction m with
  | nil => simp [Memory.erase, Memory.read]
  | cons c rest ih =>
    unfold Memory.erase at ih ⊢
    by_cases hc : c.1 = a
    · by_cases hb : b = a
      · simp only [List.filter_cons, hc, bne_self_eq_false, Bool.false_eq_true, if_false, hb, if_true]
        simpa [hb] using ih
      · have : c.1 ≠ b := fun h => hb (h ▸ hc)
        simp only [hb, if_false] at ih
        simp only [List.filter_cons, hc, bne_self_eq_false, Bool.false_eq_true, if_false, Memory.read, ih, hb]
        rw [if_neg fun h => hb h.symm]
    · by_cases hb : b = a
      · subst hb
        simp at ih
        simp [hc, Memory.read, ih]
      · simp [hb] at ih
        simp [hc, hb, Memory.read, ih]

theorem Memory.read_insert (c : Host.Cell) (m : Memory) (b : Nat) (h : ∀ d ∈ m, d.1 ≠ c.1) :
    (Memory.insert c m).read b = if b = c.1 then c.2 else m.read b := by
  induction m with
  | nil => simp [Memory.insert, Memory.read, eq_comm]
  | cons d rest ih =>
    have ih := ih fun e he => h e (List.mem_cons_of_mem _ he)
    have hd : d.1 ≠ c.1 := h d List.mem_cons_self
    unfold Memory.insert
    by_cases hlt : c.1 < d.1
    · simp [hlt, Memory.read, eq_comm]
    · simp only [hlt, if_false, Memory.read, ih]
      by_cases hb : d.1 = b
      · subst hb
        simp [hd]
      · simp [hb]

theorem Memory.ne_of_mem_erase {m : Memory} {a : Nat} {d : Host.Cell} (h : d ∈ m.erase a) : d.1 ≠ a := by
  simpa using (List.mem_filter.mp h).2

/-- A read after a write: the written byte there, every other byte as before. -/
theorem Memory.read_write (m : Memory) (a : Nat) (v : Byte) (b : Nat) :
    (m.write a v).read b = if b = a then v else m.read b := by
  unfold Memory.write
  by_cases hv : v = Config.memInit
  · rw [if_pos hv, Memory.read_erase, hv]
  · rw [if_neg hv, Memory.read_insert _ _ _ fun d hd => Memory.ne_of_mem_erase hd]
    by_cases hb : b = a
    · simp [hb]
    · simp [hb, Memory.read_erase]

@[simp] theorem Memory.read_write_same (m : Memory) (a : Nat) (v : Byte) : (m.write a v).read a = v := by
  simp [Memory.read_write]

theorem Memory.read_write_ne (m : Memory) {a b : Nat} (h : b ≠ a) (v : Byte) :
    (m.write a v).read b = m.read b := by
  simp [Memory.read_write, h]

theorem Memory.read_writeWord (m : Memory) (a : Nat) (w : Word) (b : Nat) :
    (m.writeWord a w).read b = if b = a then hi8 w else if b = a + 1 then lo8 w else m.read b := by
  unfold Memory.writeWord
  rw [Memory.read_write, Memory.read_write]
  by_cases hb : b = a
  · simp [hb]
  · simp [hb]

@[simp] theorem Memory.readWord_writeWord (m : Memory) (a : Nat) (w : Word) :
    (m.writeWord a w).readWord a = w := by
  simp [Memory.readWord, Memory.read_writeWord]

/-! ## The canonical form -/

theorem Memory.mem_insert {c e : Host.Cell} {m : Memory} : e ∈ Memory.insert c m ↔ e = c ∨ e ∈ m := by
  induction m with
  | nil => simp [Memory.insert]
  | cons d rest ih =>
    unfold Memory.insert
    by_cases hlt : c.1 < d.1
    · simp [hlt]
    · simp only [hlt, if_false, List.mem_cons, ih]
      tauto

theorem Memory.wf_erase {m : Memory} (h : m.wf) (a : Nat) : (m.erase a).wf :=
  ⟨h.1.filter _, fun c hc => h.2 c (List.mem_filter.mp hc).1⟩

theorem Memory.wf_insert {c : Host.Cell} {m : Memory} (h : m.wf) (hc : c.2 ≠ Config.memInit)
    (hne : ∀ d ∈ m, d.1 ≠ c.1) : (Memory.insert c m).wf := by
  refine ⟨?_, fun e he => ?_⟩
  · obtain ⟨hp, -⟩ := h
    induction m with
    | nil => simp [Memory.insert]
    | cons d rest ih =>
      obtain ⟨hd, hrest⟩ := List.pairwise_cons.mp hp
      have hdc : d.1 ≠ c.1 := hne d List.mem_cons_self
      have ih := ih (fun e he => hne e (List.mem_cons_of_mem _ he)) hrest
      unfold Memory.insert
      by_cases hlt : c.1 < d.1
      · simp only [hlt, if_true]
        refine List.pairwise_cons.mpr ⟨fun e he => ?_, hp⟩
        rcases List.mem_cons.mp he with rfl | he
        · exact hlt
        · exact hlt.trans (hd e he)
      · simp only [hlt, if_false]
        refine List.pairwise_cons.mpr ⟨fun e he => ?_, ih⟩
        rcases Memory.mem_insert.mp he with rfl | he
        · omega
        · exact hd e he
  · rcases Memory.mem_insert.mp he with rfl | he
    · exact hc
    · exact h.2 e he

/-- Writing a byte keeps the canonical form. -/
theorem Memory.wf_write {m : Memory} (h : m.wf) (a : Nat) (v : Byte) : (m.write a v).wf := by
  unfold Memory.write
  by_cases hv : v = Config.memInit
  · rw [if_pos hv]
    exact Memory.wf_erase h a
  · rw [if_neg hv]
    exact Memory.wf_insert (Memory.wf_erase h a) hv fun d hd => Memory.ne_of_mem_erase hd

/-- Writing a word keeps the canonical form. -/
theorem Memory.wf_writeWord {m : Memory} (h : m.wf) (a : Nat) (w : Word) : (m.writeWord a w).wf :=
  Memory.wf_write (Memory.wf_write h a _) _ _

/-- Writing a block keeps the canonical form. -/
theorem Memory.wf_writeBlock {m : Memory} (h : m.wf) (a : Nat) (bytes : List Byte) :
    (m.writeBlock a bytes).wf := by
  induction bytes generalizing m a with
  | nil => exact h
  | cons b rest ih => exact ih (Memory.wf_write h a b) (a + 1)

/-- A write lists no new address but its own. -/
theorem Memory.mem_write {m : Memory} {a : Nat} {v : Byte} {c : Host.Cell} (h : c ∈ m.write a v) :
    c.1 = a ∨ c ∈ m := by
  unfold Memory.write at h
  by_cases hv : v = Config.memInit
  · rw [if_pos hv] at h
    exact .inr (List.mem_filter.mp h).1
  · rw [if_neg hv] at h
    rcases Memory.mem_insert.mp h with rfl | h
    · exact .inl rfl
    · exact .inr (List.mem_filter.mp h).1

/-- Writing below a bound keeps every listed address below it. -/
theorem Memory.bounded_write {m : Memory} {n a : Nat} (h : ∀ c ∈ m, c.1 < n) (ha : a < n) (v : Byte) :
    ∀ c ∈ m.write a v, c.1 < n := by
  intro c hc
  rcases Memory.mem_write hc with hc | hc
  · omega
  · exact h c hc

theorem Memory.bounded_writeWord {m : Memory} {n a : Nat} (h : ∀ c ∈ m, c.1 < n) (ha : a + 1 < n) (w : Word) :
    ∀ c ∈ m.writeWord a w, c.1 < n :=
  Memory.bounded_write (Memory.bounded_write h (by omega) _) ha _

theorem Memory.bounded_writeBlock {m : Memory} {n a : Nat} (h : ∀ c ∈ m, c.1 < n) (bytes : List Byte)
    (ha : a + bytes.length ≤ n) : ∀ c ∈ m.writeBlock a bytes, c.1 < n := by
  induction bytes generalizing m a with
  | nil => exact h
  | cons b rest ih =>
    simp only [List.length_cons] at ha
    exact ih (Memory.bounded_write h (by omega) b) (by omega)

end Sys2Proof.Machine
end

