-- ==== Sys2Proof/Laws/State.lean ====
section
/-! SUPPORT. One lemma per field per update of the state. -/

namespace Sys2Proof.Machine

/-! ## One register written -/

@[simp] theorem State.setReg_cfg (s : State) (r : RegId) (v : Word) : (s.setReg r v).cfg = s.cfg := rfl
@[simp] theorem State.setReg_mem (s : State) (r : RegId) (v : Word) : (s.setReg r v).mem = s.mem := rfl
@[simp] theorem State.setReg_regions (s : State) (r : RegId) (v : Word) :
    (s.setReg r v).regions = s.regions := rfl
@[simp] theorem State.setReg_run (s : State) (r : RegId) (v : Word) : (s.setReg r v).run = s.run := rfl
@[simp] theorem State.setReg_fault (s : State) (r : RegId) (v : Word) : (s.setReg r v).fault = s.fault := rfl
@[simp] theorem State.setReg_trace (s : State) (r : RegId) (v : Word) : (s.setReg r v).trace = s.trace := rfl
@[simp] theorem State.setReg_regs (s : State) (r : RegId) (v : Word) :
    (s.setReg r v).regs = s.regs.set r v := rfl
@[simp] theorem State.setReg_memSize (s : State) (r : RegId) (v : Word) :
    (s.setReg r v).memSize = s.memSize := rfl

@[simp] theorem RegFile.get_set_same (f : RegFile) (r : RegId) (v : Word) : (f.set r v).get r = v := by
  cases r <;> rfl

theorem RegFile.get_set_ne (f : RegFile) {q r : RegId} (h : q ≠ r) (v : Word) :
    (f.set r v).get q = f.get q := by
  cases q <;> cases r <;> first | rfl | exact absurd rfl h

@[simp] theorem RegFile.set_get_same (f : RegFile) (r : RegId) : f.set r (f.get r) = f := by
  cases r <;> rfl

@[simp] theorem State.reg_setReg_same (s : State) (r : RegId) (v : Word) : (s.setReg r v).reg r = v :=
  RegFile.get_set_same s.regs r v

theorem State.reg_setReg_ne (s : State) {q r : RegId} (h : q ≠ r) (v : Word) :
    (s.setReg r v).reg q = s.reg q :=
  RegFile.get_set_ne s.regs h v

/-! ## The latch -/

theorem State.latch_eq_withFault (c : FatalCondition) (s : State) : s.latch c = s.withFault c := by
  obtain ⟨cfg, regs, mem, regions, run, fault, trace⟩ := s
  cases fault <;> rfl

@[simp] theorem State.latch_cfg (c : FatalCondition) (s : State) : (s.latch c).cfg = s.cfg := by
  rw [s.latch_eq_withFault]; rfl
@[simp] theorem State.latch_regs (c : FatalCondition) (s : State) : (s.latch c).regs = s.regs := by
  rw [s.latch_eq_withFault]; rfl
@[simp] theorem State.latch_mem (c : FatalCondition) (s : State) : (s.latch c).mem = s.mem := by
  rw [s.latch_eq_withFault]; rfl
@[simp] theorem State.latch_regions (c : FatalCondition) (s : State) : (s.latch c).regions = s.regions := by
  rw [s.latch_eq_withFault]; rfl
@[simp] theorem State.latch_run (c : FatalCondition) (s : State) : (s.latch c).run = s.run := by
  rw [s.latch_eq_withFault]; rfl
@[simp] theorem State.latch_trace (c : FatalCondition) (s : State) : (s.latch c).trace = s.trace := by
  rw [s.latch_eq_withFault]; rfl
@[simp] theorem State.latch_fault (c : FatalCondition) (s : State) :
    (s.latch c).fault = some (s.fault.getD c) := by
  rw [s.latch_eq_withFault]; rfl
@[simp] theorem State.latch_memSize (c : FatalCondition) (s : State) : (s.latch c).memSize = s.memSize := by
  simp [State.memSize]
@[simp] theorem State.latch_reg (c : FatalCondition) (s : State) (r : RegId) :
    (s.latch c).reg r = s.reg r := by
  simp [State.reg]

/-! ## Notifications -/

/-- The end of every accessor, as one update of the trace. -/
theorem notifyMapped_eq (kind : AccessKind) (a : Nat) (v : Word) (s : State) :
    notifyMapped kind a v s = { s with trace := s.trace ++ told s.regions kind a v } := by
  unfold notifyMapped told notify
  cases findRegion s.regions a <;> simp

@[simp] theorem notifyMapped_cfg (kind : AccessKind) (a : Nat) (v : Word) (s : State) :
    (notifyMapped kind a v s).cfg = s.cfg := by rw [notifyMapped_eq]
@[simp] theorem notifyMapped_regs (kind : AccessKind) (a : Nat) (v : Word) (s : State) :
    (notifyMapped kind a v s).regs = s.regs := by rw [notifyMapped_eq]
@[simp] theorem notifyMapped_mem (kind : AccessKind) (a : Nat) (v : Word) (s : State) :
    (notifyMapped kind a v s).mem = s.mem := by rw [notifyMapped_eq]
@[simp] theorem notifyMapped_regions (kind : AccessKind) (a : Nat) (v : Word) (s : State) :
    (notifyMapped kind a v s).regions = s.regions := by rw [notifyMapped_eq]
@[simp] theorem notifyMapped_run (kind : AccessKind) (a : Nat) (v : Word) (s : State) :
    (notifyMapped kind a v s).run = s.run := by rw [notifyMapped_eq]
@[simp] theorem notifyMapped_fault (kind : AccessKind) (a : Nat) (v : Word) (s : State) :
    (notifyMapped kind a v s).fault = s.fault := by rw [notifyMapped_eq]
@[simp] theorem notifyMapped_trace (kind : AccessKind) (a : Nat) (v : Word) (s : State) :
    (notifyMapped kind a v s).trace = s.trace ++ told s.regions kind a v := by rw [notifyMapped_eq]

/-! ## The next instruction fetched -/

@[simp] theorem State.advanced_cfg (s : State) (n : Nat) (l : List Notification) :
    (s.advanced n l).cfg = s.cfg := rfl
@[simp] theorem State.advanced_mem (s : State) (n : Nat) (l : List Notification) :
    (s.advanced n l).mem = s.mem := rfl
@[simp] theorem State.advanced_regions (s : State) (n : Nat) (l : List Notification) :
    (s.advanced n l).regions = s.regions := rfl
@[simp] theorem State.advanced_run (s : State) (n : Nat) (l : List Notification) :
    (s.advanced n l).run = s.run := rfl
@[simp] theorem State.advanced_fault (s : State) (n : Nat) (l : List Notification) :
    (s.advanced n l).fault = s.fault := rfl
@[simp] theorem State.advanced_trace (s : State) (n : Nat) (l : List Notification) :
    (s.advanced n l).trace = s.trace ++ l := rfl
@[simp] theorem State.advanced_ip (s : State) (n : Nat) (l : List Notification) :
    (s.advanced n l).regs.ip = s.regs.ip + BitVec.ofNat 16 n := rfl
@[simp] theorem State.advanced_memSize (s : State) (n : Nat) (l : List Notification) :
    (s.advanced n l).memSize = s.memSize := rfl

theorem State.advanced_reg_ne (s : State) (n : Nat) (l : List Notification) {r : RegId} (h : r ≠ .ip) :
    (s.advanced n l).reg r = s.reg r := by
  cases r <;> first | rfl | exact absurd rfl h

end Sys2Proof.Machine
end

