-- ==== Sys2Proof/Laws/Ops.lean ====
section
/-! SUPPORT. One lemma per shared operation that says everything it can do. -/

namespace Sys2Proof.Machine

/-! ## Sequencing -/

@[simp] theorem Res.andThen_done {α β : Type} (v : α) (s : State) (k : α → State → Res β) :
    (Res.done v s).andThen k = k v s := rfl
@[simp] theorem Res.andThen_raised {α β : Type} (s : State) (k : α → State → Res β) :
    (Res.raised s : Res α).andThen k = .raised s := rfl
@[simp] theorem Res.state_done {α : Type} (v : α) (s : State) : (Res.done v s).state = s := rfl
@[simp] theorem Res.state_raised {α : Type} (s : State) : (Res.raised s : Res α).state = s := rfl

theorem Res.outcome_eq {α : Type} (r : Res α) : r.outcome = .next r.state := rfl

theorem raise_eq {α : Type} (c : FatalCondition) (s : State) :
    (raise c s : Res α) = .raised (s.withFault c) := by
  rw [raise, State.latch_eq_withFault]

/-! ## The Register File -/

/-- A byte offset names a register exactly when it is twice the register's position. -/
theorem RegId.ofOffset_eq_some {o : Nat} {r : RegId} : RegId.ofOffset o = some r ↔ o = 2 * r.index := by
  constructor
  · intro h
    unfold RegId.ofOffset at h
    split at h
    · cases h
    · rename_i hv
      simp only [Config.regBytes, not_or, Nat.not_lt] at hv
      obtain ⟨hodd, hle⟩ := hv
      interval_cases o <;> first | (exact absurd rfl hodd) | (cases h; rfl)
  · rintro rfl
    cases r <;> rfl

theorem RegId.ofOffset_eq_none {o : Nat} : RegId.ofOffset o = none ↔ o % 2 = 1 ∨ 10 < o := by
  unfold RegId.ofOffset
  split
  · rename_i h
    simpa [Config.regBytes] using h
  · rename_i hv
    simp only [Config.regBytes, not_or, Nat.not_lt] at hv
    obtain ⟨hodd, hle⟩ := hv
    interval_cases o <;> first | (exact absurd rfl hodd) | (constructor <;> intro h <;> simp_all [RegId.ofIndex])

theorem RegId.offset_toNat (r : RegId) : r.offset.toNat = 2 * r.index := by
  cases r <;> rfl

@[simp] theorem RegId.ofOffset_offset (r : RegId) : RegId.ofOffset r.offset.toNat = some r :=
  RegId.ofOffset_eq_some.mpr r.offset_toNat

theorem RegId.ofOffset_eq_some_iff_offset {o : Word} {r : RegId} :
    RegId.ofOffset o.toNat = some r ↔ o = r.offset := by
  rw [RegId.ofOffset_eq_some, ← RegId.offset_toNat]
  exact ⟨BitVec.eq_of_toNat_eq, fun h => h ▸ rfl⟩

theorem RegId.ofOffset_bad {o : Word} (h : BadRegister o) : RegId.ofOffset o.toNat = none :=
  RegId.ofOffset_eq_none.mpr h

theorem RegId.offset_injective {q r : RegId} (h : q.offset = r.offset) : q = r := by
  cases q <;> cases r <;> first | rfl | exact absurd h (by decide)

/-- The validity test of `WellFormed` and the lookup of the machine agree. -/
theorem validRegister_eq_isSome (o : Word) :
    Operand.validRegister o = (RegId.ofOffset o.toNat).isSome := by
  cases h : RegId.ofOffset o.toNat with
  | none =>
    have h := RegId.ofOffset_eq_none.mp h
    rcases h with h | h
    · simp [Operand.validRegister, h]
    · have hle : decide (o.toNat ≤ Config.regBytes - 2) = false := decide_eq_false (Nat.not_le.mpr h)
      simp only [Operand.validRegister, hle, Bool.and_false, Option.isSome_none]
  | some r =>
    have h := RegId.ofOffset_eq_some.mp h
    cases r <;> simp [Operand.validRegister, h, RegId.index, Config.regBytes]

/-- Register read: the value and the same state, or `InvalidRegister`. -/
theorem readReg_eq (id : RegRef) (s : State) :
    readReg id s = match RegId.ofRef id with
      | some r => .done (s.reg r) s
      | none => .raised (s.withFault (.invalidRegister id)) := by
  unfold readReg
  cases RegId.ofRef id <;> simp [raise_eq]

/-- Register write: one register changed, or `InvalidRegister`. -/
theorem writeReg_eq (id : RegRef) (v : Word) (s : State) :
    writeReg id v s = match RegId.ofRef id with
      | some r => .done () (s.setReg r v)
      | none => .raised (s.withFault (.invalidRegister id)) := by
  unfold writeReg
  cases RegId.ofRef id <;> simp [raise_eq]

theorem readRegister_eq (o : Word) (s : State) :
    readRegister o s = match RegId.ofOffset o.toNat with
      | some r => .done (s.reg r) s
      | none => .raised (s.withFault (.invalidRegister (.offset o.toNat))) :=
  readReg_eq _ s

theorem writeRegister_eq (o v : Word) (s : State) :
    writeRegister o v s = match RegId.ofOffset o.toNat with
      | some r => .done () (s.setReg r v)
      | none => .raised (s.withFault (.invalidRegister (.offset o.toNat))) :=
  writeReg_eq _ v s

/-! ## The bus -/

/-- Byte read: raw memory and at most one notification, or `MemoryOutOfBounds`. -/
theorem getByte_eq (a : Nat) (s : State) :
    getByte a s =
      if a < s.memSize then
        .done (s.mem.read a) { s with trace := s.trace ++ told s.regions .read a (zext16 (s.mem.read a)) }
      else .raised (s.withFault (.memoryOutOfBounds a .byte .read)) := by
  simp only [getByte, notifyMapped_eq, raise_eq]

/-- Word read: raw memory and at most one notification, or `MemoryOutOfBounds`. -/
theorem getWord_eq (a : Nat) (s : State) :
    getWord a s =
      if a + 1 < s.memSize then
        .done (s.mem.readWord a) { s with trace := s.trace ++ told s.regions .read a (s.mem.readWord a) }
      else .raised (s.withFault (.memoryOutOfBounds a .word .read)) := by
  simp only [getWord, notifyMapped_eq, raise_eq]

/-- The state after a word read: the notification made, nothing else changed. -/
def State.wordRead (s : State) (a : Nat) : State :=
  { s with trace := s.trace ++ told s.regions .read a (s.mem.readWord a) }

@[simp] theorem State.wordRead_cfg (s : State) (a : Nat) : (s.wordRead a).cfg = s.cfg := rfl
@[simp] theorem State.wordRead_regs (s : State) (a : Nat) : (s.wordRead a).regs = s.regs := rfl
@[simp] theorem State.wordRead_mem (s : State) (a : Nat) : (s.wordRead a).mem = s.mem := rfl
@[simp] theorem State.wordRead_regions (s : State) (a : Nat) : (s.wordRead a).regions = s.regions := rfl
@[simp] theorem State.wordRead_run (s : State) (a : Nat) : (s.wordRead a).run = s.run := rfl
@[simp] theorem State.wordRead_fault (s : State) (a : Nat) : (s.wordRead a).fault = s.fault := rfl
@[simp] theorem State.wordRead_memSize (s : State) (a : Nat) : (s.wordRead a).memSize = s.memSize := rfl
@[simp] theorem State.wordRead_trace (s : State) (a : Nat) :
    (s.wordRead a).trace = s.trace ++ told s.regions .read a (s.mem.readWord a) := rfl

theorem getWord_inBounds {a : Nat} {s : State} (h : a + 1 < s.memSize) :
    getWord a s = .done (s.mem.readWord a) (s.wordRead a) := by
  rw [getWord_eq, if_pos h]; rfl

theorem getWord_outOfBounds {a : Nat} {s : State} (h : ¬ a + 1 < s.memSize) :
    getWord a s = .raised (s.withFault (.memoryOutOfBounds a .word .read)) := by
  rw [getWord_eq, if_neg h]

/-- Byte write: the byte and at most one notification, or `MemoryOutOfBounds`. -/
theorem setByte_eq (a : Nat) (b : Byte) (s : State) :
    setByte a b s =
      if a < s.memSize then
        .done () { s with mem := s.mem.write a b, trace := s.trace ++ told s.regions .write a (zext16 b) }
      else .raised (s.withFault (.memoryOutOfBounds a .byte .write)) := by
  simp only [setByte, notifyMapped_eq, raise_eq]

/-- Word write: the two bytes and at most one notification, or `MemoryOutOfBounds`. -/
theorem setWord_eq (a : Nat) (w : Word) (s : State) :
    setWord a w s =
      if a + 1 < s.memSize then
        .done () { s with mem := s.mem.writeWord a w, trace := s.trace ++ told s.regions .write a w }
      else .raised (s.withFault (.memoryOutOfBounds a .word .write)) := by
  simp only [setWord, notifyMapped_eq, raise_eq]

theorem setWord_inBounds {a : Nat} {w : Word} {s : State} (h : a + 1 < s.memSize) :
    setWord a w s = .done ()
      { s with mem := s.mem.writeWord a w, trace := s.trace ++ told s.regions .write a w } := by
  rw [setWord_eq, if_pos h]

theorem setWord_outOfBounds {a : Nat} {w : Word} {s : State} (h : ¬ a + 1 < s.memSize) :
    setWord a w s = .raised (s.withFault (.memoryOutOfBounds a .word .write)) := by
  rw [setWord_eq, if_neg h]

/-! ## Fetching -/

/-- An opcode fetch: the byte at `ip`, and `ip` advanced by 1. -/
theorem fetchByte_eq (s : State) :
    fetchByte s =
      if s.regs.ip.toNat < s.memSize then .done s.opcodeByte (s.advanced 1 s.opcodeTold)
      else .raised (s.withFault (.memoryOutOfBounds s.regs.ip.toNat .byte .read)) := by
  simp only [fetchByte, getByte_eq]
  split <;> rfl

/-- An operand fetch: the word at `ip`, and `ip` advanced by 2. -/
theorem fetchWord_eq (s : State) :
    fetchWord s =
      if s.regs.ip.toNat + 1 < s.memSize then
        .done (s.mem.readWord s.regs.ip.toNat) (s.advanced 2 (s.operandTold s.regs.ip))
      else .raised (s.withFault (.memoryOutOfBounds s.regs.ip.toNat .word .read)) := by
  simp only [fetchWord, getWord_eq]
  split <;> rfl

theorem fetchWord_inBounds {s : State} (h : s.regs.ip.toNat + 1 < s.memSize) :
    fetchWord s = .done (s.mem.readWord s.regs.ip.toNat) (s.advanced 2 (s.operandTold s.regs.ip)) := by
  rw [fetchWord_eq, if_pos h]

theorem fetchWord_outOfBounds {s : State} (h : ¬ s.regs.ip.toNat + 1 < s.memSize) :
    fetchWord s = .raised (s.withFault (.memoryOutOfBounds s.regs.ip.toNat .word .read)) := by
  rw [fetchWord_eq, if_neg h]

theorem State.advanced_advanced (s : State) (j k : Nat) (l l' : List Notification) :
    (s.advanced j l).advanced k l' = s.advanced (j + k) (l ++ l') := by
  simp only [State.advanced, List.append_assoc, BitVec.ofNat_add, BitVec.add_assoc]

/-- Everything the fetch of an instruction can do. -/
theorem fetchInstr_eq (s : State) :
    fetchInstr s =
      if s.regs.ip.toNat < s.memSize then
        match Opcode.ofByte s.cfg.hltMode s.opcodeByte with
        | none =>
          .raised ((s.advanced 1 s.opcodeTold).withFault (.invalidInstruction s.opcodeByte s.regs.ip))
        | some (.z op) => .done op.instr (s.afterFetch 1)
        | some (.w2 op) =>
          if (s.regs.ip + 1#16).toNat + 1 < s.memSize then
            if (s.regs.ip + 3#16).toNat + 1 < s.memSize then
              .done (op.instr s.operand1 s.operand2) (s.afterFetch 5)
            else
              .raised ((s.advanced 3 (s.opcodeTold ++ s.operandTold (s.regs.ip + 1#16))).withFault
                (.memoryOutOfBounds (s.regs.ip + 3#16).toNat .word .read))
          else
            .raised ((s.advanced 1 s.opcodeTold).withFault
              (.memoryOutOfBounds (s.regs.ip + 1#16).toNat .word .read))
      else .raised (s.withFault (.memoryOutOfBounds s.regs.ip.toNat .byte .read)) := by
  unfold fetchInstr
  rw [fetchByte_eq]
  split
  · simp only [Res.andThen_done, State.advanced_cfg, State.advanced_ip]
    cases Opcode.ofByte s.cfg.hltMode s.opcodeByte with
    | none =>
      have hback : s.regs.ip + BitVec.ofNat 16 1 - 1#16 = s.regs.ip := BitVec.add_sub_cancel _ _
      simp only [raise_eq, hback]
    | some op =>
      cases op with
      | z op => simp [State.afterFetch, State.fetchTold]
      | w2 op =>
        dsimp only
        by_cases h1 : (s.regs.ip + 1#16).toNat + 1 < s.memSize
        · rw [if_pos h1, fetchWord_inBounds (by simpa using h1), Res.andThen_done, State.advanced_advanced]
          by_cases h3 : (s.regs.ip + 3#16).toNat + 1 < s.memSize
          · rw [if_pos h3, fetchWord_inBounds (by simpa using h3), Res.andThen_done, State.advanced_advanced]
            simp [State.afterFetch, State.fetchTold, State.operandTold, State.operand1, State.operand2]
          · rw [if_neg h3, fetchWord_outOfBounds (by simpa using h3)]
            simp [State.operandTold]
        · rw [if_neg h1, fetchWord_outOfBounds (by simpa using h1)]
          rfl
  · rfl

/-! ## The meanings -/

theorem exec_nop (s : State) : exec .nop s = .next s := rfl

/-- Everything `HLT` can do. -/
theorem exec_hlt (s : State) :
    exec .hlt s = .next (match s.cfg.hltMode with
      | .halt => { s with run := .halted }
      | .invalid => s.withFault (.invalidInstruction 0x01#8 (s.regs.ip - 1#16))) := by
  simp only [exec, execHlt, raise_eq, Res.outcome_eq, Res.state_raised]
  cases s.cfg.hltMode <;> rfl

theorem sum16_eq (v w : Word) : sum16 v w = v + w := rfl

/-- Everything `ADD` can do. -/
theorem exec_add (reg1 reg2 : Word) (s : State) :
    exec (.add reg1 reg2) s = .next (match RegId.ofOffset reg1.toNat, RegId.ofOffset reg2.toNat with
      | some ra, some rb => s.setReg .acr (sum16 (s.reg ra) (s.reg rb))
      | none, _ => s.withFault (.invalidRegister (.offset reg1.toNat))
      | some _, none => s.withFault (.invalidRegister (.offset reg2.toNat))) := by
  simp only [exec, execAdd, readRegister_eq, Res.outcome_eq]
  cases RegId.ofOffset reg1.toNat <;> cases RegId.ofOffset reg2.toNat <;> rfl

/-- Everything `MOV_LIT_REG` can do. -/
theorem exec_movLitReg (literal regAddress : Word) (s : State) :
    exec (.movLitReg literal regAddress) s = .next (match RegId.ofOffset regAddress.toNat with
      | some r => s.setReg r literal
      | none => s.withFault (.invalidRegister (.offset regAddress.toNat))) := by
  simp only [exec, execMovLitReg, move, readSource, writeDestination, Res.andThen_done, writeRegister_eq,
    Res.outcome_eq]
  cases RegId.ofOffset regAddress.toNat <;> rfl

/-- Everything `MOV_REG_REG` can do. -/
theorem exec_movRegReg (reg1 reg2 : Word) (s : State) :
    exec (.movRegReg reg1 reg2) s = .next (match RegId.ofOffset reg1.toNat, RegId.ofOffset reg2.toNat with
      | some ra, some rb => s.setReg rb (s.reg ra)
      | none, _ => s.withFault (.invalidRegister (.offset reg1.toNat))
      | some _, none => s.withFault (.invalidRegister (.offset reg2.toNat))) := by
  simp only [exec, execMovRegReg, move, readSource, writeDestination, readRegister_eq, writeRegister_eq,
    Res.outcome_eq]
  cases RegId.ofOffset reg1.toNat <;> cases RegId.ofOffset reg2.toNat <;> rfl

/-- Everything `MOV_REG_MEM` can do. -/
theorem exec_movRegMem (regAddress a : Word) (s : State) :
    exec (.movRegMem regAddress a) s = .next (match RegId.ofOffset regAddress.toNat with
      | some r =>
        if a.toNat + 1 < s.memSize then
          { s with
            mem := s.mem.writeWord a.toNat (s.reg r)
            trace := s.trace ++ told s.regions .write a.toNat (s.reg r) }
        else s.withFault (.memoryOutOfBounds a.toNat .word .write)
      | none => s.withFault (.invalidRegister (.offset regAddress.toNat))) := by
  simp only [exec, execMovRegMem, move, readSource, writeDestination, readRegister_eq, Res.outcome_eq]
  cases RegId.ofOffset regAddress.toNat with
  | none => rfl
  | some r =>
    simp only [Res.andThen_done, setWord_eq]
    split <;> rfl

/-- Everything `MOV_MEM_MEM` can do. -/
theorem exec_movMemMem (a b : Word) (s : State) :
    exec (.movMemMem a b) s = .next (
      if a.toNat + 1 < s.memSize then
        if b.toNat + 1 < s.memSize then
          { s.wordRead a.toNat with
            mem := s.mem.writeWord b.toNat (s.mem.readWord a.toNat)
            trace := (s.wordRead a.toNat).trace ++ told s.regions .write b.toNat (s.mem.readWord a.toNat) }
        else (s.wordRead a.toNat).withFault (.memoryOutOfBounds b.toNat .word .write)
      else s.withFault (.memoryOutOfBounds a.toNat .word .read)) := by
  simp only [exec, execMovMemMem, move, readSource, writeDestination, Res.outcome_eq]
  by_cases ha : a.toNat + 1 < s.memSize
  · rw [if_pos ha, getWord_inBounds ha, Res.andThen_done]
    by_cases hb : b.toNat + 1 < s.memSize
    · rw [if_pos hb, setWord_inBounds (by simpa using hb)]
      rfl
    · rw [if_neg hb, setWord_outOfBounds (by simpa using hb)]
      rfl
  · rw [if_neg ha, getWord_outOfBounds ha]
    rfl

/-- Everything `MOV_MEM_REG` can do. -/
theorem exec_movMemReg (a regAddress : Word) (s : State) :
    exec (.movMemReg a regAddress) s = .next (
      if a.toNat + 1 < s.memSize then
        match RegId.ofOffset regAddress.toNat with
        | some r => (s.wordRead a.toNat).setReg r (s.mem.readWord a.toNat)
        | none => (s.wordRead a.toNat).withFault (.invalidRegister (.offset regAddress.toNat))
      else s.withFault (.memoryOutOfBounds a.toNat .word .read)) := by
  simp only [exec, execMovMemReg, move, readSource, writeDestination, Res.outcome_eq]
  by_cases ha : a.toNat + 1 < s.memSize
  · rw [if_pos ha, getWord_inBounds ha, Res.andThen_done, writeRegister_eq]
    cases RegId.ofOffset regAddress.toNat <;> rfl
  · rw [if_neg ha, getWord_outOfBounds ha]
    rfl

/-! ## The step -/

theorem State.stopped_eq_false {s : State} : s.stopped = false ↔ s.running := by
  obtain ⟨cfg, regs, mem, regions, run, fault, trace⟩ := s
  cases run <;> cases fault <;> simp [State.stopped, State.running]

/-- A running core's step: the fetch, then the instruction. -/
theorem step_of_running {s : State} (h : s.running) :
    step s = match fetchInstr s with
      | .done i t => exec i t
      | .raised t => .next t := by
  unfold step
  exact if_neg (by simp [State.stopped_eq_false.mpr h])

theorem step_of_not_running {s : State} (h : ¬ s.running) : step s = .next s := by
  have : s.stopped = true := by
    cases hs : s.stopped
    · exact absurd (State.stopped_eq_false.mp hs) h
    · rfl
  simp [step, this]

end Sys2Proof.Machine
end

