-- ==== Sys2Proof/Laws/HostPort.lean ====
section
/-! SUPPORT. What a host operation does, said once. -/

namespace Sys2Proof.Machine

@[simp] theorem Session.access_done {α : Type} (x : Session) (reply : α → HostReply) (v : α)
    (s : State) : x.access reply (.done v s) = .next (⟨s, x.phase⟩, reply v) := rfl

@[simp] theorem Session.access_raised {α : Type} (x : Session) (reply : α → HostReply) (s : State) :
    x.access reply (.raised s) = .next (⟨s, x.phase⟩, .nothing) := rfl

/-- An accessor never touches the phase, and leaves the state its action leaves. -/
theorem Session.access_next {α : Type} {x y : Session} {reply : α → HostReply} {r : Res α}
    {p : HostReply} (h : x.access reply r = .next (y, p)) : y = ⟨r.state, x.phase⟩ := by
  cases r <;> cases h <;> rfl

/-- The host's `step()` answers a state exactly when the core's does, the same one, and the executing
phase has begun. -/
theorem Session.call_step_eq_next {x y : Session} {p : HostReply} :
    x.call .step = .next (y, p) ↔
      ∃ t, Sys2Proof.Machine.step x.core = .next t ∧ y = ⟨t, .executing⟩ ∧ p = .nothing := by
  unfold Session.call Session.step
  cases Sys2Proof.Machine.step x.core <;> simp [eq_comm]

end Sys2Proof.Machine
end

