-- ==== Sys2Proof/Laws/PerInstr.lean ====
section
/-! SUPPORT. Statements made instruction by instruction. -/

namespace Sys2Proof.Laws.EncodedLength

/-- The encoding of the instruction begins with its opcode's byte and has its opcode's length
(spec/30_encoding.md R91, R92, R95). -/
def Statement (i : Instr) : Prop :=
  (encode i).head? = some i.opcode.byte ∧ (encode i).length = i.length

theorem nop : Statement .nop := ⟨rfl, rfl⟩
theorem hlt : Statement .hlt := ⟨rfl, rfl⟩
theorem add (reg1 reg2 : Word) : Statement (.add reg1 reg2) := ⟨rfl, rfl⟩
theorem movLitReg (literal regAddress : Word) : Statement (.movLitReg literal regAddress) := ⟨rfl, rfl⟩
theorem movRegReg (reg1 reg2 : Word) : Statement (.movRegReg reg1 reg2) := ⟨rfl, rfl⟩
theorem movRegMem (regAddress memAddress : Word) : Statement (.movRegMem regAddress memAddress) := ⟨rfl, rfl⟩
theorem movMemMem (memAddr1 memAddr2 : Word) : Statement (.movMemMem memAddr1 memAddr2) := ⟨rfl, rfl⟩
theorem movMemReg (memAddress regAddress : Word) : Statement (.movMemReg memAddress regAddress) := ⟨rfl, rfl⟩

end Sys2Proof.Laws.EncodedLength
end

