-- ==== Sys2Proof/Laws/Step.lean ====
section
/-! SUPPORT. What a step can do, said once. -/

namespace Sys2Proof.Machine

/-- Every way a running core's step can go: a fetch out of bounds, an undecoded opcode, or the
decoded instruction executed after its fetches. -/
theorem step_cases {s t : State} (hr : s.running) (h : step s = .next t) :
    (¬ s.regs.ip.toNat < s.memSize ∧
      t = s.withFault (.memoryOutOfBounds s.regs.ip.toNat .byte .read)) ∨
    (s.regs.ip.toNat < s.memSize ∧ Opcode.ofByte s.cfg.hltMode s.opcodeByte = none ∧
      t = (s.advanced 1 s.opcodeTold).withFault (.invalidInstruction s.opcodeByte s.regs.ip)) ∨
    (∃ op, s.regs.ip.toNat < s.memSize ∧ Opcode.ofByte s.cfg.hltMode s.opcodeByte = some (.z op) ∧
      exec op.instr (s.afterFetch 1) = .next t) ∨
    (∃ op, s.regs.ip.toNat < s.memSize ∧ Opcode.ofByte s.cfg.hltMode s.opcodeByte = some (.w2 op) ∧
      ¬ (s.regs.ip + 1#16).toNat + 1 < s.memSize ∧
      t = (s.advanced 1 s.opcodeTold).withFault
        (.memoryOutOfBounds (s.regs.ip + 1#16).toNat .word .read)) ∨
    (∃ op, s.regs.ip.toNat < s.memSize ∧ Opcode.ofByte s.cfg.hltMode s.opcodeByte = some (.w2 op) ∧
      (s.regs.ip + 1#16).toNat + 1 < s.memSize ∧ ¬ (s.regs.ip + 3#16).toNat + 1 < s.memSize ∧
      t = (s.advanced 3 (s.opcodeTold ++ s.operandTold (s.regs.ip + 1#16))).withFault
        (.memoryOutOfBounds (s.regs.ip + 3#16).toNat .word .read)) ∨
    (∃ op, s.fetchable 5 ∧ Opcode.ofByte s.cfg.hltMode s.opcodeByte = some (.w2 op) ∧
      exec (op.instr s.operand1 s.operand2) (s.afterFetch 5) = .next t) := by
  rw [step_of_running hr, fetchInstr_eq] at h
  by_cases h0 : s.regs.ip.toNat < s.memSize
  · rw [if_pos h0] at h
    cases hop : Opcode.ofByte s.cfg.hltMode s.opcodeByte with
    | none =>
      rw [hop] at h
      cases h
      exact .inr (.inl ⟨h0, rfl, rfl⟩)
    | some op =>
      rw [hop] at h
      cases op with
      | z op => exact .inr (.inr (.inl ⟨op, h0, rfl, h⟩))
      | w2 op =>
        dsimp only at h
        by_cases h1 : (s.regs.ip + 1#16).toNat + 1 < s.memSize
        · rw [if_pos h1] at h
          by_cases h3 : (s.regs.ip + 3#16).toNat + 1 < s.memSize
          · rw [if_pos h3] at h
            exact .inr (.inr (.inr (.inr (.inr ⟨op, ⟨h0, fun _ => ⟨h1, h3⟩⟩, rfl, h⟩))))
          · rw [if_neg h3] at h
            cases h
            exact .inr (.inr (.inr (.inr (.inl ⟨op, h0, rfl, h1, h3, rfl⟩))))
        · rw [if_neg h1] at h
          cases h
          exact .inr (.inr (.inr (.inl ⟨op, h0, rfl, h1, rfl⟩)))
  · rw [if_neg h0] at h
    cases h
    exact .inl ⟨h0, rfl⟩

end Sys2Proof.Machine
end

