-- ==== Sys2Proof/Machine/ByteCode.lean ====
section
/-! DEFINITION. The byte-code text format of the external driver (spec/30_encoding.md R105): it is
parsed outside the core, and its bytes reach the core through `loadBlock`. -/

namespace Sys2Proof.Machine

/-- The value of a hexadecimal digit; lower case, of which the source says nothing, is no digit here
(91_not_in_source.md N10, log entry 8). -/
def hexDigit (c : Char) : Option Nat :=
  if '0' ≤ c ∧ c ≤ '9' then some (c.toNat - '0'.toNat)
  else if 'A' ≤ c ∧ c ≤ 'F' then some (c.toNat - 'A'.toNat + 10)
  else none

/-- Whitespace and newlines separate tokens (R105). -/
def isSeparator (c : Char) : Bool := c == ' ' || c == '\n' || c == '\t' || c == '\r'

/-- The byte of a two-character token; any other token has no meaning. -/
def tokenByte : List Char → Option Byte
  | [a, b] => do
    let hi ← hexDigit a
    let lo ← hexDigit b
    pure (BitVec.ofNat 8 (16 * hi + lo))
  | _ => none

/-- A finished token, if there is one, in front of the rest of the bytes. DESIGN CHOICE: an empty
token adds nothing, so a trailing newline and leading or repeated separators are ignored; the source
says nothing of them (91_not_in_source.md N10, log entry 8). -/
def pushToken (token : List Char) (rest : Option (List Byte)) : Option (List Byte) :=
  if token.isEmpty then rest
  else do
    let b ← tokenByte token
    let bs ← rest
    pure (b :: bs)

/-- The bytes of a text, given the characters of the token being read. DESIGN CHOICE: there is no
form for a comment, whose characters are read as tokens like any others; the source says nothing of
comments (91_not_in_source.md N10, log entry 8). -/
def parseFrom (token : List Char) : List Char → Option (List Byte)
  | [] => pushToken token (some [])
  | c :: rest =>
    if isSeparator c then pushToken token (parseFrom [] rest)
    else parseFrom (token ++ [c]) rest

/-- "each decoded to one byte, concatenated in file order" (R105); none for a text with an
ill-formed token. -/
def parseByteCode (text : List Char) : Option (List Byte) := parseFrom [] text

end Sys2Proof.Machine
end

