-- ==== Sys2Proof/Tests/Slice0.lean ====
section
/-! SUPPORT. Tests: expected values are the test vectors of spec/95_test_vectors.md (ids S, T) and the
examples of the rules; and for each statement with hypotheses a witness that meets them. -/

namespace Sys2Proof.Tests

open Sys2Proof.Machine

/-! ## WellFormed refuses what it should -/

theorem test_wellFormed_refuses_hlt_in_invalid_mode :
    Instr.wellFormed ⟨⟨256, by decide⟩, .invalid⟩ .hlt = false := by decide
theorem test_wellFormed_refuses_odd_register :
    Instr.wellFormed Config.reference (.add 0x0004#16 0x000B#16) = false := by decide
theorem test_wellFormed_refuses_first_addend :
    Instr.wellFormed Config.reference (.add 0x000C#16 0x0004#16) = false := by decide
theorem test_wellFormed_refuses_literal_destination :
    Instr.wellFormed Config.reference (.movLitReg 0x0001#16 0x0100#16) = false := by decide
theorem test_wellFormed_refuses_copy_source :
    Instr.wellFormed Config.reference (.movRegReg 0x000C#16 0x0004#16) = false := by decide
theorem test_wellFormed_refuses_copy_destination :
    Instr.wellFormed Config.reference (.movRegReg 0x0004#16 0x0005#16) = false := by decide
theorem test_wellFormed_refuses_store_source :
    Instr.wellFormed Config.reference (.movRegMem 0x0007#16 0x0100#16) = false := by decide
theorem test_wellFormed_refuses_store_address :
    Instr.wellFormed Config.reference (.movRegMem 0x0004#16 0xFFFF#16) = false := by decide
theorem test_wellFormed_refuses_copy_word_source :
    Instr.wellFormed Config.reference (.movMemMem 0xFFFF#16 0x0100#16) = false := by decide
theorem test_wellFormed_refuses_copy_word_destination :
    Instr.wellFormed Config.reference (.movMemMem 0x0100#16 0xFFFF#16) = false := by decide
theorem test_wellFormed_refuses_load_address :
    Instr.wellFormed ⟨⟨256, by decide⟩, .halt⟩ (.movMemReg 0x00FF#16 0x0004#16) = false := by decide
theorem test_wellFormed_refuses_load_destination :
    Instr.wellFormed Config.reference (.movMemReg 0x0102#16 0x000C#16) = false := by decide
theorem test_wellFormed_accepts_the_last_word :
    Instr.wellFormed Config.reference (.movRegMem 0x000A#16 0xFFFE#16) = true := by decide

/-! ## Decoding: the words of the spec's vectors, written from the encodings of R91, R92, R97 -/

theorem test_decode_nop : decode .halt [0x00#8] = .ok (.nop, []) := rfl
theorem test_decode_hlt : decode .halt [0x01#8] = .ok (.hlt, []) := rfl
theorem test_decode_hlt_invalid_mode : decode .invalid [0x01#8] = .error (.undecoded 0x01#8) := rfl
theorem test_decode_add :
    decode .halt [0x02#8, 0xFF#8, 0xFF#8, 0x00#8, 0x04#8] = .ok (.add 0xFFFF#16 0x0004#16, []) := rfl
theorem test_decode_movLitReg :
    decode .halt [0x10#8, 0xBE#8, 0xEF#8, 0x00#8, 0x04#8, 0x12#8] =
      .ok (.movLitReg 0xBEEF#16 0x0004#16, [0x12#8]) := rfl
theorem test_decode_movRegReg :
    decode .halt [0x11#8, 0x00#8, 0x04#8, 0x00#8, 0x0C#8] = .ok (.movRegReg 0x0004#16 0x000C#16, []) := rfl
theorem test_decode_movRegMem :
    decode .halt [0x12#8, 0x00#8, 0x04#8, 0xFF#8, 0xFE#8] = .ok (.movRegMem 0x0004#16 0xFFFE#16, []) := rfl
theorem test_decode_movMemMem :
    decode .halt [0x13#8, 0x30#8, 0x10#8, 0x40#8, 0x00#8] = .ok (.movMemMem 0x3010#16 0x4000#16, []) := rfl
theorem test_decode_movMemReg :
    decode .halt [0x14#8, 0x30#8, 0x20#8, 0x00#8, 0x08#8] = .ok (.movMemReg 0x3020#16 0x0008#16, []) := rfl
theorem test_decode_undecoded : decode .halt [0x15#8, 0x00#8] = .error (.undecoded 0x15#8) := rfl
theorem test_decode_truncated : decode .halt [0x10#8, 0x00#8, 0x07#8, 0x00#8] = .error .truncated := rfl

/-- The table's match word of `ADD`, the opcode byte most significant, with the operands of R150's example. -/
theorem test_decodeTableWord_add :
    decodeTableWord 40 0x0200040006 = some (.add 0x0004#16 0x0006#16) := by decide
theorem test_decodeTableWord_hlt : decodeTableWord 8 0x01 = some .hlt := by decide
/-- The same instruction with its first byte least significant (log entry 9). -/
theorem test_decodeTableWord_lsb_first :
    decodeTableWord 40 0x0000000014 = some (.movMemReg 0x0000#16 0x0000#16) := by decide

/-! ## One step on a small state -/

/-- A core of the given size and mode with bytes placed at `ip`. -/
def bootAt (n : MemSize) (m : HltMode) (ip : Word) (bytes : List Byte) : State :=
  placeBytes ip bytes ((State.construct ⟨n, m⟩ RegFile.reset []).setReg .ip ip)

/-- The reset state with bytes placed at 0. -/
def boot (bytes : List Byte) : State := bootAt ⟨65536, by decide⟩ .halt 0x0000#16 bytes

/-- The state after one step. -/
def after (s : State) : State :=
  match step s with
  | .next t => t
  | .fault _ => s
  | .refused _ => s

/-- TN2: the advance of `ip` wraps. -/
theorem test_nop_wraps :
    (after (bootAt ⟨65536, by decide⟩ .halt 0xFFFF#16 [0x00#8])).regs.ip = 0x0000#16 := by decide
/-- TH1. -/
theorem test_hlt_halts :
    (after (boot [0x01#8])).run = .halted ∧ (after (boot [0x01#8])).regs.ip = 0x0001#16 := by decide
/-- TH2. -/
theorem test_hlt_invalid_mode :
    (after (bootAt ⟨65536, by decide⟩ .invalid 0x0020#16 [0x01#8])).fault =
      some (.invalidInstruction 0x01#8 0x0020#16) := by decide
/-- TX3. -/
theorem test_undecoded_at_the_top :
    (after (bootAt ⟨65536, by decide⟩ .halt 0xFFFF#16 [0xFF#8])).fault =
      some (.invalidInstruction 0xFF#8 0xFFFF#16) := by decide
/-- TA3: the carry is lost. -/
theorem test_add_wraps :
    (after (((boot [0x02#8, 0x00#8, 0x04#8, 0x00#8, 0x06#8]).setReg .r1 0xFFFF#16).setReg .r2 0x0001#16)).regs.acr
      = 0x0000#16 := by decide
/-- TA12: `ip` is read as the address of the next instruction. -/
theorem test_add_ip_ip :
    (after (boot [0x02#8, 0x00#8, 0x00#8, 0x00#8, 0x00#8])).regs.acr = 0x000A#16 := by decide
/-- TL4: a jump. -/
theorem test_movLitReg_jumps :
    (after (boot [0x10#8, 0x02#8, 0x00#8, 0x00#8, 0x00#8])).regs.ip = 0x0200#16 := by decide
/-- TW1: operands fetched after the wrap. -/
theorem test_movLitReg_across_the_wrap :
    (after (bootAt ⟨65536, by decide⟩ .halt 0xFFFF#16 [0x10#8, 0x00#8, 0x07#8, 0x00#8, 0x04#8])).regs
      = ⟨0x0004#16, 0#16, 0x0007#16, 0#16, 0#16, 0#16⟩ := by decide
/-- TR1. -/
theorem test_movRegReg_copies :
    (after ((boot [0x11#8, 0x00#8, 0x04#8, 0x00#8, 0x08#8]).setReg .r1 0x1234#16)).regs
      = ⟨0x0005#16, 0#16, 0x1234#16, 0#16, 0x1234#16, 0#16⟩ := by decide
/-- TR7: an odd destination. -/
theorem test_movRegReg_odd_destination :
    (after (boot [0x11#8, 0x00#8, 0x04#8, 0x00#8, 0x05#8])).fault =
      some (.invalidRegister (.offset 5)) := by decide
/-- TM1.9: the store goes over the instruction's own second operand, fetched before. -/
theorem test_movRegMem_own_bytes :
    (after ((boot [0x12#8, 0x00#8, 0x04#8, 0x00#8, 0x03#8]).setReg .r1 0xA55A#16)).mem
      = [(0, 0x12#8), (2, 0x04#8), (3, 0xA5#8), (4, 0x5A#8)] := by decide
/-- TM1.7: no partial write at the last byte. -/
theorem test_movRegMem_last_byte :
    (after ((bootAt ⟨256, by decide⟩ .halt 0x0000#16 [0x12#8, 0x00#8, 0x04#8, 0x00#8, 0xFF#8]).setReg .r1
      0xA55A#16)).fault = some (.memoryOutOfBounds 0xFF .word .write) := by decide
/-- TM3.3: overlapping words, the source read whole first. -/
theorem test_movMemMem_overlap :
    let t := after { boot [0x13#8, 0x01#8, 0x00#8, 0x01#8, 0x01#8] with
      mem := [(0, 0x13#8), (1, 0x01#8), (3, 0x01#8), (4, 0x01#8), (256, 0xBE#8), (257, 0xEF#8), (258, 0x77#8)] }
    t.mem.read 256 = 0xBE#8 ∧ t.mem.read 257 = 0xBE#8 ∧ t.mem.read 258 = 0xEF#8 := by decide
/-- TM3.7: the read is told to A, the write to B, in that order. -/
theorem test_movMemMem_notifies :
    (after (mapRegion 2 0x3010 0x301F (mapRegion 1 0x3000 0x30FF
      (boot [0x13#8, 0x30#8, 0x00#8, 0x30#8, 0x10#8])))).trace
      = [⟨1, .read, 0x3000, 0#16⟩, ⟨2, .write, 0x3010, 0#16⟩] := by decide
/-- TM4.4: its own opcode and first operand byte. -/
theorem test_movMemReg_own_bytes :
    (after (boot [0x14#8, 0x00#8, 0x00#8, 0x00#8, 0x04#8])).regs.r1 = 0x1400#16 := by decide
/-- TM4.7: the read is notified before the bad register is found. -/
theorem test_movMemReg_bad_register :
    let t := after (mapRegion 1 0x3000 0x30FF (boot [0x14#8, 0x30#8, 0x00#8, 0x00#8, 0x0C#8]))
    t.fault = some (.invalidRegister (.offset 12)) ∧ t.trace = [⟨1, .read, 0x3000, 0#16⟩] := by decide
/-- TB3: an operand word at the last byte. -/
theorem test_fetch_operand_at_the_last_byte :
    let t := after (bootAt ⟨256, by decide⟩ .halt 0x00FE#16 [0x10#8])
    t.fault = some (.memoryOutOfBounds 0xFF .word .read) ∧ t.regs.ip = 0x00FF#16 := by decide
/-- P6, the first step: every fetch is notified. -/
theorem test_fetches_are_notified :
    (after (mapRegion 4 0 4 (boot [0x10#8, 0x12#8, 0x34#8, 0x00#8, 0x04#8]))).trace
      = [⟨4, .read, 0, 0x0010#16⟩, ⟨4, .read, 1, 0x1234#16⟩, ⟨4, .read, 3, 0x0004#16⟩] := by decide
/-- The first instruction after reset is the one placed there. -/
theorem test_withFetchWord_runs :
    (after (State.reset.withFetchWord 40 0x1000050004)).regs.r1 = 0x0005#16 := by decide
/-- TN3: zero memory is NOP. -/
theorem test_reset_runs_nop : (after State.reset).regs.ip = 0x0001#16 := by decide

/-! ## The host -/

/-- A session around a state. -/
def sessionOf (s : State) : Session := ⟨s, .setup⟩

/-- TG1: name `r3` and offset 8 are the same register. -/
theorem test_name_and_offset :
    RegId.ofRef (.name "r3") = some .r3 ∧ RegId.ofRef (.offset 8) = some .r3 := by decide
/-- TG2. -/
theorem test_unknown_name : RegId.ofRef (.name "sp") = none := by decide
/-- TG7: the base address alone is looked up. -/
theorem test_word_write_below_a_region :
    (setWord 0x0F 0x1122#16 (mapRegion 1 0x10 0x1F State.reset)).state.trace = [] := by decide
/-- TG8. -/
theorem test_word_write_at_a_regions_end :
    (setWord 0x1F 0x3344#16 (mapRegion 1 0x10 0x1F State.reset)).state.trace =
      [⟨1, .write, 0x1F, 0x3344#16⟩] := by decide
/-- TG10: a region with its start past its end answers for nothing. -/
theorem test_inverted_region : findRegion (mapRegion 1 0x20 0x10 State.reset).regions 0x18 = none := by decide
/-- S10. -/
theorem test_display_cell :
    (Display.mk 1 ⟨16, by decide⟩ ⟨16, by decide⟩).render [⟨1, .write, 0x3012, 0x0048#16⟩] =
      [⟨2, 1, 0x48#8⟩] := by decide
/-- R105, with the first tokens of S1. -/
theorem test_byteCode :
    parseByteCode ['1', '0', ' ', '0', 'A', '\n', 'F', 'F'] = some [0x10#8, 0x0A#8, 0xFF#8] := by decide
/-- Log entry 8: a trailing newline adds nothing. -/
theorem test_byteCode_trailing_newline :
    parseByteCode ['0', 'A', '\n'] = some [0x0A#8] := by decide
theorem test_byteCode_ill_formed : parseByteCode ['1', ' ', '0', '0'] = none := by decide

/-! ## Witnesses: states and operands that meet the hypotheses of the statements -/

theorem witness_DecodeOfEncodeIsTheInstruction :
    Instr.hlt.decodable .halt = true ∧ (Instr.add 0xFFFF#16 0x0000#16).decodable .invalid = true := by decide
theorem witness_DecodedBytesAreTheEncoding :
    decode .halt [0x10#8, 0xFF#8, 0x00#8, 0x00#8, 0x0A#8, 0x01#8] =
      .ok (.movLitReg 0xFF00#16 0x000A#16, [0x01#8]) := rfl
theorem witness_UndecodedOpcode_low :
    (boot [0x03#8]).running ∧ (boot [0x03#8]).regs.ip.toNat < (boot [0x03#8]).memSize ∧
      UndecodedOpcode .halt (boot [0x03#8]).opcodeByte := by decide
theorem witness_UndecodedOpcode_high :
    (boot [0x15#8]).running ∧ UndecodedOpcode .halt (boot [0x15#8]).opcodeByte ∧
      UndecodedOpcode .halt 0x0F#8 ∧ UndecodedOpcode .halt 0xFF#8 := by decide
theorem witness_UndecodedOpcode_hlt :
    let s := bootAt ⟨1, by decide⟩ .invalid 0x0000#16 [0x01#8]
    s.running ∧ s.regs.ip.toNat < s.memSize ∧ UndecodedOpcode s.cfg.hltMode s.opcodeByte := by decide
theorem witness_UndecodedOpcode_raised :
    (boot [0x17#8]).running ∧ ∃ t, step (boot [0x17#8]) = .next t ∧
      t.fault = some (.invalidInstruction 0x17#8 0x0000#16) := ⟨by decide, _, rfl, by decide⟩
theorem witness_StepRunsTheDecodedInstruction :
    let s := bootAt ⟨256, by decide⟩ .halt 0x00FB#16 [0x10#8, 0x00#8, 0x01#8, 0x00#8, 0x04#8]
    s.running ∧ decode s.cfg.hltMode s.codeBytes = .ok (.movLitReg 0x0001#16 0x0004#16, []) ∧
      s.fetchable (Instr.movLitReg 0x0001#16 0x0004#16).length := ⟨by decide, rfl, by decide⟩
theorem witness_FetchOutOfBounds_opcode :
    let s := bootAt ⟨256, by decide⟩ .halt 0x0100#16 []
    s.running ∧ s.memSize ≤ s.regs.ip.toNat := by decide
theorem witness_FetchOutOfBounds_first :
    let s := bootAt ⟨256, by decide⟩ .halt 0x00FE#16 [0x14#8]
    s.running ∧ s.regs.ip.toNat < s.memSize ∧ FiveByteOpcode s.opcodeByte ∧
      s.memSize ≤ (s.regs.ip + 1#16).toNat + 1 := by decide
theorem witness_FetchOutOfBounds_second :
    let s := bootAt ⟨65536, by decide⟩ .halt 0xFFFC#16 [0x02#8]
    s.running ∧ s.regs.ip.toNat < s.memSize ∧ FiveByteOpcode s.opcodeByte ∧
      (s.regs.ip + 1#16).toNat + 1 < s.memSize ∧ s.memSize ≤ (s.regs.ip + 3#16).toNat + 1 := by decide
theorem witness_StoppedCoreDoesNothing :
    (State.reset.withFault (.invalidInstruction 0x03#8 0#16)).fault ≠ none ∧
      (after (boot [0x01#8])).run = .halted := by decide

/-- The hypotheses of `EncodedAs`, for bytes placed at 0. -/
abbrev MeetsEncodedAs (bytes : List Byte) (i : Instr) : Prop :=
  (boot bytes).running ∧ i.decodable (boot bytes).cfg.hltMode = true ∧
    (boot bytes).codeBytes = bytes ++ List.replicate (5 - bytes.length) 0x00#8 ∧
    (boot bytes).fetchable bytes.length

theorem witness_EncodedAs_nop : MeetsEncodedAs [0x00#8] .nop := by decide
theorem witness_EncodedAs_hlt : MeetsEncodedAs [0x01#8] .hlt := by decide
theorem witness_EncodedAs_add :
    MeetsEncodedAs [0x02#8, hi8 0x0004#16, lo8 0x0004#16, hi8 0x0006#16, lo8 0x0006#16]
      (.add 0x0004#16 0x0006#16) := by decide
theorem witness_EncodedAs_movLitReg :
    MeetsEncodedAs [0x10#8, hi8 0xFFFF#16, lo8 0xFFFF#16, hi8 0x000A#16, lo8 0x000A#16]
      (.movLitReg 0xFFFF#16 0x000A#16) := by decide
theorem witness_EncodedAs_movRegReg :
    MeetsEncodedAs [0x11#8, hi8 0x0004#16, lo8 0x0004#16, hi8 0x0008#16, lo8 0x0008#16]
      (.movRegReg 0x0004#16 0x0008#16) := by decide
theorem witness_EncodedAs_movRegMem :
    MeetsEncodedAs [0x12#8, hi8 0x0004#16, lo8 0x0004#16, hi8 0x0100#16, lo8 0x0100#16]
      (.movRegMem 0x0004#16 0x0100#16) := by decide
theorem witness_EncodedAs_movMemMem :
    MeetsEncodedAs [0x13#8, hi8 0x0100#16, lo8 0x0100#16, hi8 0x0102#16, lo8 0x0102#16]
      (.movMemMem 0x0100#16 0x0102#16) := by decide
theorem witness_EncodedAs_movMemReg :
    MeetsEncodedAs [0x14#8, hi8 0x0102#16, lo8 0x0102#16, hi8 0x0008#16, lo8 0x0008#16]
      (.movMemReg 0x0102#16 0x0008#16) := by decide

theorem witness_HltHaltsTheCore :
    State.reset.cfg.hltMode = .halt ∧
      (bootAt ⟨1, by decide⟩ .invalid 0#16 []).cfg.hltMode = .invalid := by decide
/-- Both ways an address can be bad, at the edges of the range. -/
theorem witness_BadRegister :
    BadRegister 0x0001#16 ∧ BadRegister 0x000B#16 ∧ BadRegister 0x000C#16 ∧ BadRegister 0xFFFF#16 ∧
      ¬ BadRegister 0x0000#16 ∧ ¬ BadRegister 0x000A#16 := by decide
theorem witness_memory_operands :
    (0xFFFE#16 : Word).toNat + 1 < State.reset.memSize ∧
      State.reset.memSize ≤ (0xFFFF#16 : Word).toNat + 1 := by decide
theorem witness_MovMemMem_out_of_bounds_destination :
    (0x0000#16 : Word).toNat + 1 < State.reset.memSize ∧
      State.reset.memSize ≤ (0xFFFF#16 : Word).toNat + 1 := by decide
theorem witness_MovMemReg_bad_register :
    (0xFFFE#16 : Word).toNat + 1 < State.reset.memSize ∧ BadRegister 0x000C#16 := by decide
theorem witness_InstructionRaisesExactlyWhenIllFormed :
    State.reset.fault = none ∧ Instr.wellFormed State.reset.cfg .nop = true ∧
      Instr.wellFormed State.reset.cfg (.movRegMem 0x0004#16 0xFFFF#16) = false := by decide
theorem witness_RegisterFormsFrame :
    (∃ t, exec (.add 0x0004#16 0x0006#16) State.reset = .next t) ∧
    (∃ t, exec (.movLitReg 0x1234#16 0x0004#16) State.reset = .next t) ∧
    (∃ t, exec (.movRegReg 0x0004#16 0x000C#16) State.reset = .next t) ∧
    (∃ t, exec (.movMemReg 0x0004#16 0x0006#16) State.reset = .next t) :=
  ⟨⟨_, rfl⟩, ⟨_, rfl⟩, ⟨_, rfl⟩, ⟨_, rfl⟩⟩
theorem witness_frame_premises :
    (Instr.add 0x0004#16 0x0006#16).wellFormed Config.reference = true ∧
    (Instr.add 0x0004#16 0x0007#16).wellFormed Config.reference = false ∧
    RegId.acr ≠ RegId.r1 ∧ RegId.r1.offset ≠ 0x0006#16 := by decide
theorem witness_StoreFormsFrame :
    (∃ t, exec (.movRegMem 0x0004#16 0x0100#16) State.reset = .next t) ∧
    (∃ t, exec (.movMemMem 0x0100#16 0xFFFF#16) State.reset = .next t) :=
  ⟨⟨_, rfl⟩, ⟨_, rfl⟩⟩
theorem witness_RegisterWriteThenRead : (11 % 2 = 1 ∨ 10 < 11) ∧ (12 % 2 = 1 ∨ 10 < 12) := by decide
theorem witness_in_bounds_accesses :
    0xFFFF < State.reset.memSize ∧ 0xFFFE + 1 < State.reset.memSize := by decide
theorem witness_OutOfBoundsAccessHasNoEffect :
    (bootAt ⟨256, by decide⟩ .halt 0#16 []).memSize ≤ 256 ∧
      (bootAt ⟨256, by decide⟩ .halt 0#16 []).memSize ≤ 255 + 1 := by decide
theorem witness_MapShadowsEarlierRegions :
    (sessionOf State.reset).phase = .setup ∧ (Session.mk State.reset .executing).phase = .executing := by decide
/-- The first and the last address of a range, and the addresses beside them. -/
theorem witness_MapShadows_edges :
    (16 ≤ 16 ∧ 16 ≤ 31) ∧ (16 ≤ 31 ∧ 31 ≤ 31) ∧ 15 < 16 ∧ 31 < 32 := by decide
theorem witness_host_step : ∃ t, step (sessionOf State.reset).core = .next t := ⟨_, rfl⟩
theorem witness_step_answers : ∃ t, step State.reset = .next t := ⟨_, rfl⟩
theorem witness_DevicesCannotInfluenceTheCore :
    SameButDevices State.reset (mapRegion 1 0 65535 State.reset) ∧
      (∃ t, step State.reset = .next t) ∧ ∃ t, step (mapRegion 1 0 65535 State.reset) = .next t :=
  ⟨by decide, ⟨_, rfl⟩, ⟨_, rfl⟩⟩
theorem witness_StepKeepsTheInvariant :
    (boot [0x12#8, 0x00#8, 0x00#8, 0x01#8, 0x00#8]).Inv ∧
      ∃ t, step (boot [0x12#8, 0x00#8, 0x00#8, 0x01#8, 0x00#8]) = .next t := ⟨by decide, ⟨_, rfl⟩⟩
theorem witness_ResetHasTheInvariant :
    Memory.wf [(0, 0x01#8), (255, 0xFF#8)] ∧
      ∀ c ∈ ([(0, 0x01#8), (255, 0xFF#8)] : Memory), c.1 < 256 := by decide
theorem witness_StepKeepsStops :
    ∃ t, step { State.reset with fault := some (.invalidRegister (.offset 1)), run := .halted } = .next t :=
  ⟨_, rfl⟩
theorem witness_OnlyHltHalts :
    (boot [0x01#8]).run = .running ∧ ∃ t, step (boot [0x01#8]) = .next t ∧ t.run = .halted :=
  ⟨by decide, _, rfl, by decide⟩
theorem witness_RegistersChangeOnlyAsDestinations :
    ∃ t, step (boot [0x10#8, 0x00#8, 0x05#8, 0x00#8, 0x04#8]) = .next t ∧
      t.reg .r1 ≠ (boot [0x10#8, 0x00#8, 0x05#8, 0x00#8, 0x04#8]).reg .r1 := ⟨_, rfl, by decide⟩
theorem witness_MemoryChangesOnlyByStores :
    ∃ t, step (boot [0x13#8, 0x00#8, 0x00#8, 0x01#8, 0x00#8]) = .next t ∧
      t.mem.read 0x100 ≠ (boot [0x13#8, 0x00#8, 0x00#8, 0x01#8, 0x00#8]).mem.read 0x100 :=
  ⟨_, rfl, by decide⟩
theorem witness_ControlMoves :
    (boot [0x11#8, 0x00#8, 0x00#8, 0x00#8, 0x00#8]).running ∧
      ∃ t, step (boot [0x11#8, 0x00#8, 0x00#8, 0x00#8, 0x00#8]) = .next t ∧ t.fault = none :=
  ⟨by decide, _, rfl, by decide⟩
theorem witness_FaultingStepWritesNoDestination :
    (boot [0x14#8, 0xFF#8, 0xFF#8, 0x00#8, 0x0C#8]).fault = none ∧
      ∃ t, step (boot [0x14#8, 0xFF#8, 0xFF#8, 0x00#8, 0x0C#8]) = .next t ∧
        t.fault = some (.memoryOutOfBounds 0xFFFF .word .read) := ⟨by decide, _, rfl, by decide⟩
/-- A step of the state latches the condition. -/
abbrev Raises (s : State) (c : FatalCondition) : Prop :=
  s.fault = none ∧ ∃ t, step s = .next t ∧ t.fault = some c

theorem witness_FaultingStep_undecoded :
    Raises (boot [0x03#8]) (.invalidInstruction 0x03#8 0#16) := ⟨by decide, _, rfl, by decide⟩
theorem witness_FaultingStep_register :
    Raises (boot [0x10#8, 0x00#8, 0x01#8, 0x00#8, 0x0C#8]) (.invalidRegister (.offset 12)) :=
  ⟨by decide, _, rfl, by decide⟩
theorem witness_FaultingStep_opcode_fetch :
    Raises (bootAt ⟨256, by decide⟩ .halt 0x0100#16 []) (.memoryOutOfBounds 256 .byte .read) :=
  ⟨by decide, _, rfl, by decide⟩
theorem witness_FaultingStep_first_operand_fetch :
    Raises (bootAt ⟨256, by decide⟩ .halt 0x00FE#16 [0x14#8]) (.memoryOutOfBounds 255 .word .read) :=
  ⟨by decide, _, rfl, by decide⟩
theorem witness_FaultingStep_second_operand_fetch :
    Raises (bootAt ⟨65536, by decide⟩ .halt 0xFFFC#16 [0x02#8]) (.memoryOutOfBounds 65535 .word .read) :=
  ⟨by decide, _, rfl, by decide⟩
theorem witness_FaultingStep_data_write :
    Raises (boot [0x12#8, 0x00#8, 0x04#8, 0xFF#8, 0xFF#8]) (.memoryOutOfBounds 65535 .word .write) :=
  ⟨by decide, _, rfl, by decide⟩
theorem witness_ConstructionGivesTheResetState :
    (1 ≤ 1 ∧ 1 ≤ 65536) ∧ (1 ≤ 65536 ∧ 65536 ≤ 65536) ∧ 65536 < 65537 := by decide
theorem witness_HostRegisterAccessors :
    RegId.ofRef (.name "acr") = some .acr ∧ RegId.ofRef (.offset 2) = some .acr ∧
      RegId.ofRef (.name "sp") = none ∧ RegId.ofRef (.offset 12) = none := by decide
theorem witness_LoadBlockCopiesTheBlock :
    65534 + ([0x01#8, 0x02#8] : List Byte).length ≤ (sessionOf State.reset).core.memSize ∧
      (sessionOf State.reset).core.memSize < 65535 + ([0x01#8, 0x02#8] : List Byte).length := by decide
theorem witness_NoHostOperationUndoesAStop :
    ∃ y, (Session.mk State.reset .executing).calls
      [.step, .writeReg (.name "ip") 0x0010#16, .setByte 3 0x01#8] = .next y := ⟨_, rfl⟩
theorem witness_ReachableCoresHaveTheInvariant :
    ∃ x y, Session.construct 256 .halt = .next x ∧
      x.calls [.map 1 0 10, .loadBlock [0x01#8, 0x00#8] 254, .step, .getWord 254] = .next y :=
  ⟨_, _, rfl, rfl⟩
theorem witness_DisplayRenders :
    (⟨1, .read, 0, 0#16⟩ : Notification).kind = .read ∧
      (⟨2, .write, 0, 0#16⟩ : Notification).dev ≠ (Display.mk 1 ⟨16, by decide⟩ ⟨16, by decide⟩).dev := by decide
theorem witness_HostBusAccessors :
    0xFFFF < (sessionOf State.reset).core.memSize ∧ 0xFFFE + 1 < (sessionOf State.reset).core.memSize ∧
      (sessionOf State.reset).core.memSize ≤ 0x10000 ∧
      (sessionOf State.reset).core.memSize ≤ 0xFFFF + 1 := by decide

end Sys2Proof.Tests
end

section
/-! PROOFS. The family of spec/20_memory.md: a word store and its load (R80), and region lookup (R66). -/

namespace Sys2Proof.Machine

/-! ## A word store, then a load -/

/-- A load answers the word just stored: a store changes memory and trace only, so the load meets
the same bounds check. -/
theorem getWord_after_setWord {s t : State} {a : Nat} {v : Word} (h : a + 1 < s.memSize)
    (ht : setWord a v s = .done () t) : getWord a t = .done v (t.wordRead a) := by
  rw [setWord_inBounds h] at ht
  obtain ⟨-, rfl⟩ := Res.done.inj ht
  rw [getWord_inBounds (by exact h), Memory.readWord_writeWord]

/-- Settles O22: the store's closed form gives the state, the load answers by
`getWord_after_setWord`, and the bytes are those of `Memory.read_writeWord`. -/
theorem wordStoreThenLoadReturnsTheValue : Obligations.WordStoreThenLoadReturnsTheValue := by
  intro s a v h
  have hstore := setWord_inBounds (w := v) h
  refine ⟨_, _, hstore, getWord_after_setWord h hstore, ?_, ?_, fun b hb hb' => ?_⟩
  · simp [Memory.read_writeWord, hi8_toNat]
  · simp [Memory.read_writeWord, lo8_toNat]
  · simp [Memory.read_writeWord, hb, hb']

/-! ## Region lookup -/

@[simp] theorem Region.contains_iff {r : Region} {a : Nat} :
    r.contains a = true ↔ r.first ≤ a ∧ a ≤ r.last := by
  simp [Region.contains]

/-- The region found contains the address, and no region before it does. -/
theorem findRegion_eq_some_iff {regions : List Region} {a : Nat} {r : Region} :
    findRegion regions a = some r ↔
      ∃ before after, regions = before ++ r :: after ∧ (r.first ≤ a ∧ a ≤ r.last) ∧
        ∀ q ∈ before, ¬ (q.first ≤ a ∧ a ≤ q.last) := by
  simp only [findRegion, List.find?_eq_some_iff_append, Bool.not_eq_true', ← Bool.not_eq_true,
    Region.contains_iff]
  constructor
  · rintro ⟨hr, before, after, happ, hbefore⟩
    exact ⟨before, after, happ, hr, hbefore⟩
  · rintro ⟨before, after, happ, hr, hbefore⟩
    exact ⟨hr, before, after, happ, hbefore⟩

theorem findRegion_eq_none_iff {regions : List Region} {a : Nat} :
    findRegion regions a = none ↔ ∀ q ∈ regions, ¬ (q.first ≤ a ∧ a ≤ q.last) := by
  simp only [findRegion, List.find?_eq_none, Region.contains_iff]

theorem told_of_findRegion_some {regions : List Region} {a : Nat} {r : Region}
    (h : findRegion regions a = some r) (kind : AccessKind) (v : Word) :
    told regions kind a v = [⟨r.dev, kind, a, v⟩] := by
  simp [told, h]

theorem told_of_findRegion_none {regions : List Region} {a : Nat}
    (h : findRegion regions a = none) (kind : AccessKind) (v : Word) :
    told regions kind a v = [] := by
  simp [told, h]

/-- Settles O25: lookup is the library's `List.find?`, whose answer is characterised by the split of
the list at the first region that contains the address. -/
theorem firstContainingRegionAnswers : Obligations.FirstContainingRegionAnswers :=
  ⟨fun _ _ _ => findRegion_eq_some_iff, fun _ _ => findRegion_eq_none_iff,
    fun _ kind _ v => ⟨fun _ h => told_of_findRegion_some h kind v,
      fun h => told_of_findRegion_none h kind v⟩⟩

end Sys2Proof.Machine
end

section
/-! PROOFS. The family of spec/30_encoding.md: `InvalidInstruction` and the undecoded opcodes
(R98, R213). -/

namespace Sys2Proof

/-! ## Decoded opcodes -/

theorem OpZ.opcode_instr (op : OpZ) : op.instr.opcode = .z op := by
  cases op <;> rfl

theorem OpW2.opcode_instr (op : OpW2) (op1 op2 : Word) :
    (op.instr op1 op2).opcode = .w2 op := by
  cases op <;> rfl

/-- An instruction whose opcode the lookup answered is in the table. -/
theorem Instr.decodable_of_ofByte {m : HltMode} {b : Byte} {op : Opcode} {i : Instr}
    (h : Opcode.ofByte m b = some op) (hi : i.opcode = op) : i.decodable m = true := by
  rw [Instr.decodable, hi]
  exact (Opcode.ofByte_eq_some.mp h).2

namespace Machine

/-! ## Which conditions are raised -/

@[simp] theorem State.withFault_fault (s : State) (c : FatalCondition) :
    (s.withFault c).fault = some (s.fault.getD c) := rfl

/-- A decodable instruction raises no `InvalidInstruction`: `HLT` under `HLT_MODE = invalid` is the
only arm that could, and it is not decodable. -/
theorem exec_fault_ne_invalidInstruction {i : Instr} {s t : State}
    (h : exec i s = .next t) (hi : i.decodable s.cfg.hltMode = true) (hs : s.fault = none)
    (b : Byte) (a : Word) : t.fault ≠ some (.invalidInstruction b a) := by
  cases i with
  | nop =>
    rw [exec_nop] at h
    cases h
    simp [hs]
  | hlt =>
    have hm : s.cfg.hltMode = .halt := by simpa [Instr.decodable, Instr.opcode, Opcode.inTable] using hi
    rw [exec_hlt, hm] at h
    cases h
    simp [hs]
  | add reg1 reg2 =>
    rw [exec_add] at h
    cases h
    split <;> simp [hs]
  | movLitReg literal regAddress =>
    rw [exec_movLitReg] at h
    cases h
    split <;> simp [hs]
  | movRegReg reg1 reg2 =>
    rw [exec_movRegReg] at h
    cases h
    split <;> simp [hs]
  | movRegMem regAddress memAddress =>
    rw [exec_movRegMem] at h
    cases h
    split
    · split <;> simp [hs]
    · simp [hs]
  | movMemMem memAddr1 memAddr2 =>
    rw [exec_movMemMem] at h
    cases h
    split
    · split <;> simp [hs]
    · simp [hs]
  | movMemReg memAddress regAddress =>
    rw [exec_movMemReg] at h
    cases h
    split
    · split <;> simp [hs]
    · simp [hs]

/-- A running core that fetches an undecoded opcode consumes it and raises `InvalidInstruction`. -/
theorem step_of_undecodedOpcode {s : State} (hr : s.running) (hip : s.regs.ip.toNat < s.memSize)
    (hu : UndecodedOpcode s.cfg.hltMode s.opcodeByte) :
    step s = .next ((s.advanced 1 s.opcodeTold).withFault
      (.invalidInstruction s.opcodeByte s.regs.ip)) := by
  rw [step_of_running hr, fetchInstr_eq, if_pos hip, Opcode.ofByte_eq_none.mpr hu]

/-- A step that raises `InvalidInstruction` fetched an undecoded opcode: the fetches raise other
conditions, and what the lookup answers is decodable. -/
theorem undecodedOpcode_of_step {s t : State} {b : Byte} {a : Word} (hr : s.running)
    (h : step s = .next t) (ht : t.fault = some (.invalidInstruction b a)) :
    b = s.opcodeByte ∧ a = s.regs.ip ∧ UndecodedOpcode s.cfg.hltMode b := by
  have hs : s.fault = none := hr.2
  obtain ⟨-, rfl⟩ | ⟨-, hop, rfl⟩ | ⟨op, -, hop, hex⟩ | ⟨op, -, -, -, rfl⟩ |
    ⟨op, -, -, -, -, rfl⟩ | ⟨op, -, hop, hex⟩ := step_cases hr h
  · simp [hs] at ht
  · obtain ⟨rfl, rfl⟩ : s.opcodeByte = b ∧ s.regs.ip = a := by simpa [hs] using ht
    exact ⟨rfl, rfl, Opcode.ofByte_eq_none.mp hop⟩
  · exact absurd ht (exec_fault_ne_invalidInstruction hex
      (Instr.decodable_of_ofByte hop op.opcode_instr) hs b a)
  · simp [hs] at ht
  · simp [hs] at ht
  · exact absurd ht (exec_fault_ne_invalidInstruction hex
      (Instr.decodable_of_ofByte hop (op.opcode_instr _ _)) hs b a)

/-- Settles O4: the fetch raises on exactly the bytes the lookup answers nothing for
(`Opcode.ofByte_eq_none`), and no decodable instruction raises `InvalidInstruction`. -/
theorem undecodedOpcodeRaisesInvalidInstruction :
    Obligations.UndecodedOpcodeRaisesInvalidInstruction :=
  ⟨fun _ => step_of_undecodedOpcode, fun _ _ _ _ => undecodedOpcode_of_step⟩

end Machine
end Sys2Proof
end

section
/-! PROOFS. The family of spec/41_control.md: `NOP` (R140), by way of the one-byte instructions of
format `Z`. -/

namespace Sys2Proof.Machine

/-! ## Instructions of format `Z` -/

theorem State.opcodeByte_of_codeBytes {s : State} {b : Byte} {rest : List Byte}
    (h : s.codeBytes = b :: rest) : s.opcodeByte = b :=
  (List.cons.inj h).1

theorem State.afterFetch_ip_toNat (s : State) (n : Nat) :
    (s.afterFetch n).regs.ip.toNat = (s.regs.ip.toNat + n) % 65536 := by
  simp [State.afterFetch, BitVec.toNat_add]

/-- A running core whose opcode byte is in the table with format `Z` fetches nothing more. -/
theorem step_of_ofByte_z {s : State} {op : OpZ} (hr : s.running)
    (hip : s.regs.ip.toNat < s.memSize)
    (hop : Opcode.ofByte s.cfg.hltMode s.opcodeByte = some (.z op)) :
    step s = exec op.instr (s.afterFetch 1) := by
  rw [step_of_running hr, fetchInstr_eq, if_pos hip, hop]

/-- An instruction of format `Z` is encoded by its opcode byte alone (R91). -/
theorem encodedAs_z (op : OpZ) : EncodedAs [Opcode.byte (.z op)] op.instr := by
  intro s rest hr hdec hbytes hfetch
  have htable : (Opcode.z op).inTable s.cfg.hltMode = true := by
    rwa [Instr.decodable, op.opcode_instr] at hdec
  have hop : Opcode.ofByte s.cfg.hltMode s.opcodeByte = some (.z op) :=
    Opcode.ofByte_eq_some.mpr ⟨State.opcodeByte_of_codeBytes hbytes, htable⟩
  exact ⟨step_of_ofByte_z hr hfetch.1 hop, s.afterFetch_ip_toNat 1⟩

/-- Settles O9: `NOP` is the opcode of format `Z` with byte 00, and its meaning is the identity, so a
step of it is its fetch alone. -/
theorem nopHasNoEffect : Obligations.NopHasNoEffect :=
  ⟨encodedAs_z .nop, exec_nop⟩

end Sys2Proof.Machine
end

section
/-! PROOFS. The family of spec/45_host_and_device_interface.md: the reference display (R204, R205). -/

namespace Sys2Proof.Machine

/-! ## The reference display -/

/-- The display is a function of its notifications in order (R205): one more notification appends
what it renders. -/
theorem Display.render_append_singleton (d : Display) (trace : List Notification)
    (n : Notification) : d.render (trace ++ [n]) = d.render trace ++ (d.see n).toList := by
  cases h : d.see n <;> simp [Display.render, h]

@[simp] theorem Display.see_write (d : Display) (a : Nat) (v : Word) :
    d.see ⟨d.dev, .write, a, v⟩ = some ⟨(d.cell a).1, (d.cell a).2, lo8 v⟩ :=
  if_pos ⟨rfl, rfl⟩

theorem Display.see_eq_none_iff {d : Display} {n : Notification} :
    d.see n = none ↔ n.kind = .read ∨ n.dev ≠ d.dev := by
  cases hk : n.kind <;> simp [Display.see, hk]

theorem lo8_eq_ofNat (v : Word) : lo8 v = BitVec.ofNat 8 (v.toNat % 256) := by
  rw [← lo8_toNat, BitVec.ofNat_toNat, BitVec.setWidth_eq]

/-- Settles O42: a notification appends what the display sees of it, which is the glyph of a write to
its device (`Display.see_write`) and nothing otherwise (`Display.see_eq_none_iff`). -/
theorem displayRendersTheLowByteOfWrites : Obligations.DisplayRendersTheLowByteOfWrites := by
  refine ⟨fun d trace a v => ?_, fun d trace n hn => ?_⟩
  · rw [Display.render_append_singleton, Display.see_write, lo8_eq_ofNat]
    rfl
  · rw [Display.render_append_singleton, Display.see_eq_none_iff.mpr hn]
    exact List.append_nil _

end Sys2Proof.Machine
end

section
/-! PROOFS. The family of spec/30_encoding.md: decoding and encoding are inverse (R90 to R99), and a
step runs what the bytes at `ip` encode. -/

namespace Sys2Proof

/-! ## The two formats -/

/-- Every instruction has one of the two formats (R91, R92). -/
theorem Instr.format_cases (i : Instr) :
    (∃ op : OpZ, i = op.instr) ∨ ∃ (op : OpW2) (op1 op2 : Word), i = op.instr op1 op2 := by
  cases i with
  | nop => exact .inl ⟨.nop, rfl⟩
  | hlt => exact .inl ⟨.hlt, rfl⟩
  | add reg1 reg2 => exact .inr ⟨.add, reg1, reg2, rfl⟩
  | movLitReg literal regAddress => exact .inr ⟨.movLitReg, literal, regAddress, rfl⟩
  | movRegReg reg1 reg2 => exact .inr ⟨.movRegReg, reg1, reg2, rfl⟩
  | movRegMem regAddress memAddress => exact .inr ⟨.movRegMem, regAddress, memAddress, rfl⟩
  | movMemMem memAddr1 memAddr2 => exact .inr ⟨.movMemMem, memAddr1, memAddr2, rfl⟩
  | movMemReg memAddress regAddress => exact .inr ⟨.movMemReg, memAddress, regAddress, rfl⟩

@[simp] theorem OpZ.encode_instr (op : OpZ) : encode op.instr = [Opcode.byte (.z op)] := by
  cases op <;> rfl

@[simp] theorem OpW2.encode_instr (op : OpW2) (op1 op2 : Word) :
    encode (op.instr op1 op2) = encodeW2 op op1 op2 := by
  cases op <;> rfl

@[simp] theorem OpZ.length_instr (op : OpZ) : op.instr.length = 1 := by
  rw [Instr.length, op.opcode_instr, Opcode.length]

@[simp] theorem OpW2.length_instr (op : OpW2) (op1 op2 : Word) : (op.instr op1 op2).length = 5 := by
  rw [Instr.length, op.opcode_instr, Opcode.length]

theorem encode_length (i : Instr) : (encode i).length = i.length := by
  obtain ⟨op, rfl⟩ | ⟨op, op1, op2, rfl⟩ := i.format_cases
  · simp
  · simp [encodeW2]

/-- A row of the table is found by its own byte. -/
theorem Opcode.ofByte_byte {m : HltMode} {op : Opcode} (h : op.inTable m = true) :
    Opcode.ofByte m op.byte = some op :=
  Opcode.ofByte_eq_some.mpr ⟨rfl, h⟩

/-! ## Decode after encode -/

theorem decode_opcode_z {m : HltMode} {op : OpZ} (h : (Opcode.z op).inTable m = true)
    (rest : List Byte) : decode m (Opcode.byte (.z op) :: rest) = .ok (op.instr, rest) := by
  simp only [decode, Opcode.ofByte_byte h]

theorem decode_encodeW2 {m : HltMode} {op : OpW2} (h : (Opcode.w2 op).inTable m = true)
    (op1 op2 : Word) (rest : List Byte) :
    decode m (encodeW2 op op1 op2 ++ rest) = .ok (op.instr op1 op2, rest) := by
  simp only [encodeW2, List.cons_append, List.nil_append, decode, Opcode.ofByte_byte h,
    joinBytes_hi8_lo8]

/-- Settles O2: by the format of the instruction; the opcode byte is found in the table, and joining
the halves of an operand gives it back. -/
theorem decodeOfEncodeIsTheInstruction : Obligations.DecodeOfEncodeIsTheInstruction := by
  intro m i rest h
  obtain ⟨op, rfl⟩ | ⟨op, op1, op2, rfl⟩ := i.format_cases
  · rw [Instr.decodable, op.opcode_instr] at h
    rw [op.encode_instr]
    exact decode_opcode_z h rest
  · rw [Instr.decodable, op.opcode_instr] at h
    rw [op.encode_instr]
    exact decode_encodeW2 h op1 op2 rest

/-! ## Encode after decode -/

/-- Settles O3: along the branches of `decode`; only the two formats answer an instruction, and
splitting a joined operand gives its bytes back. -/
theorem decodedBytesAreTheEncoding : Obligations.DecodedBytesAreTheEncoding := by
  intro m bytes rest i h
  unfold decode at h
  split at h
  · cases h
  · split at h
    · cases h
    · next b _ op hop =>
      cases h
      obtain ⟨rfl, -⟩ := Opcode.ofByte_eq_some.mp hop
      exact ⟨by simp, Instr.decodable_of_ofByte hop op.opcode_instr⟩
    · next b _ op hop =>
      split at h
      · cases h
        obtain ⟨rfl, -⟩ := Opcode.ofByte_eq_some.mp hop
        exact ⟨by simp [encodeW2], Instr.decodable_of_ofByte hop (op.opcode_instr _ _)⟩
      · cases h

/-- Settles O1: each line evaluates the decoder on the bytes of one example. -/
theorem specExampleBytesDecode : Obligations.SpecExampleBytesDecode :=
  ⟨rfl, rfl, rfl, rfl, rfl, rfl, rfl, rfl⟩

namespace Machine

/-! ## The step of an encoded instruction -/

/-- The address after the high byte of a fetched word does not wrap: memory ends by 65536. -/
theorem State.toNat_succ_of_inBounds {s : State} {a : Word} (h : a.toNat + 1 < s.memSize) :
    (a + 1#16).toNat = a.toNat + 1 := by
  have hmax : s.memSize ≤ 65536 := s.cfg.memSize.property.2
  rw [BitVec.toNat_add, BitVec.toNat_ofNat]
  omega

/-- An in-bounds operand word at `a` is the two bytes at `a` and the address after it. -/
theorem State.readWord_eq_of_inBounds {s : State} {a : Word} (h : a.toNat + 1 < s.memSize) :
    s.mem.readWord a.toNat = joinBytes (s.mem.read a.toNat) (s.mem.read (a + 1#16).toNat) := by
  rw [Memory.readWord, State.toNat_succ_of_inBounds h]

/-- The bytes at `ip` hold the operand words where the fetches read them. -/
theorem State.operands_of_codeBytes {s : State} {op : OpW2} {op1 op2 : Word} {rest : List Byte}
    (h : s.codeBytes = encodeW2 op op1 op2 ++ rest) (hf : s.fetchable 5) :
    s.operand1 = op1 ∧ s.operand2 = op2 := by
  obtain ⟨h1, h3⟩ := hf.2 rfl
  simp only [State.codeBytes, encodeW2, List.cons_append, List.nil_append, List.cons.injEq] at h
  obtain ⟨-, hb1, hb2, hb3, hb4, -⟩ := h
  have hip2 : s.regs.ip + 1#16 + 1#16 = s.regs.ip + 2#16 := BitVec.add_assoc _ _ _
  have hip4 : s.regs.ip + 3#16 + 1#16 = s.regs.ip + 4#16 := BitVec.add_assoc _ _ _
  refine ⟨?_, ?_⟩
  · rw [State.operand1, State.readWord_eq_of_inBounds h1, hip2, hb1, hb2, joinBytes_hi8_lo8]
  · rw [State.operand2, State.readWord_eq_of_inBounds h3, hip4, hb3, hb4, joinBytes_hi8_lo8]

/-- A running core whose opcode byte is in the table with format `W2` fetches both operand words. -/
theorem step_of_ofByte_w2 {s : State} {op : OpW2} (hr : s.running) (hf : s.fetchable 5)
    (hop : Opcode.ofByte s.cfg.hltMode s.opcodeByte = some (.w2 op)) :
    step s = exec (op.instr s.operand1 s.operand2) (s.afterFetch 5) := by
  obtain ⟨h0, hw⟩ := hf
  obtain ⟨h1, h3⟩ := hw rfl
  simp only [step_of_running hr, fetchInstr_eq, if_pos h0, hop, if_pos h1, if_pos h3]

/-- An instruction of format `W2` is encoded by its opcode byte and its operand words (R92). -/
theorem encodedAs_w2 (op : OpW2) (op1 op2 : Word) :
    EncodedAs (encodeW2 op op1 op2) (op.instr op1 op2) := by
  intro s rest hr hdec hbytes hfetch
  have htable : (Opcode.w2 op).inTable s.cfg.hltMode = true := by
    rwa [Instr.decodable, op.opcode_instr] at hdec
  have hop : Opcode.ofByte s.cfg.hltMode s.opcodeByte = some (.w2 op) :=
    Opcode.ofByte_eq_some.mpr ⟨State.opcodeByte_of_codeBytes hbytes, htable⟩
  obtain ⟨h1, h2⟩ := State.operands_of_codeBytes hbytes hfetch
  refine ⟨?_, s.afterFetch_ip_toNat 5⟩
  rw [step_of_ofByte_w2 hr hfetch hop, h1, h2]
  rfl

/-- Every instruction is encoded by the bytes `encode` gives it. -/
theorem encodedAs_encode (i : Instr) : EncodedAs (encode i) i := by
  obtain ⟨op, rfl⟩ | ⟨op, op1, op2, rfl⟩ := i.format_cases
  · rw [op.encode_instr]
    exact encodedAs_z op
  · rw [op.encode_instr]
    exact encodedAs_w2 op op1 op2

/-- Settles O5: bytes that decode are the encoding of the instruction, and a step runs what the bytes
at `ip` encode. -/
theorem stepRunsTheDecodedInstruction : Obligations.StepRunsTheDecodedInstruction := by
  intro s i rest hr hdec hf
  obtain ⟨hbytes, hdecodable⟩ := decodedBytesAreTheEncoding _ _ _ _ hdec
  rw [← encode_length] at hf ⊢
  obtain ⟨hstep, hip⟩ := encodedAs_encode i s rest hr hdecodable hbytes hf
  exact ⟨hstep, hip, rfl⟩

end Machine
end Sys2Proof
end

section
/-! PROOFS. The family of spec/40_engine.md: fetches out of bounds, stopped cores, and that every step
answers a state (R120 to R128). -/

namespace Sys2Proof.Machine

/-! ## Fetches out of bounds -/

theorem ofByte_of_fiveByteOpcode {b : Byte} (h : FiveByteOpcode b) (m : HltMode) :
    ∃ op, Opcode.ofByte m b = some (.w2 op) := by
  obtain h | h | h | h | h | h := h
  · exact ⟨.add, Opcode.ofByte_eq_some.mpr ⟨h, rfl⟩⟩
  · exact ⟨.movLitReg, Opcode.ofByte_eq_some.mpr ⟨h, rfl⟩⟩
  · exact ⟨.movRegReg, Opcode.ofByte_eq_some.mpr ⟨h, rfl⟩⟩
  · exact ⟨.movRegMem, Opcode.ofByte_eq_some.mpr ⟨h, rfl⟩⟩
  · exact ⟨.movMemMem, Opcode.ofByte_eq_some.mpr ⟨h, rfl⟩⟩
  · exact ⟨.movMemReg, Opcode.ofByte_eq_some.mpr ⟨h, rfl⟩⟩

/-- Settles O6: the three branches of `fetchInstr_eq` in which a bounds check fails. -/
theorem fetchOutOfBoundsRaises : Obligations.FetchOutOfBoundsRaises := by
  refine ⟨fun s hr h0 => ?_, fun s hr h0 hop h1 => ?_, fun s hr h0 hop h1 h3 => ?_⟩
  · rw [step_of_running hr, fetchInstr_eq, if_neg (Nat.not_lt.mpr h0)]
  · obtain ⟨op, hop⟩ := ofByte_of_fiveByteOpcode hop s.cfg.hltMode
    simp only [step_of_running hr, fetchInstr_eq, if_pos h0, hop, if_neg (Nat.not_lt.mpr h1)]
  · obtain ⟨op, hop⟩ := ofByte_of_fiveByteOpcode hop s.cfg.hltMode
    simp only [step_of_running hr, fetchInstr_eq, if_pos h0, hop, if_pos h1,
      if_neg (Nat.not_lt.mpr h3)]

/-! ## Stopped cores -/

/-- Settles O7: neither a Halted nor a faulted core is running, and a step of a core that is not
running is the identity. -/
theorem stoppedCoreDoesNothing : Obligations.StoppedCoreDoesNothing := by
  intro s h
  refine step_of_not_running fun hr => ?_
  obtain ⟨hrun, hfault⟩ := hr
  obtain h | h := h
  · rw [hrun] at h
    cases h
  · exact h hfault

/-! ## Every step answers a state -/

theorem exec_eq_next (i : Instr) (s : State) : ∃ t, exec i s = .next t := by
  cases i with
  | nop => exact ⟨_, exec_nop s⟩
  | hlt => exact ⟨_, exec_hlt s⟩
  | add reg1 reg2 => exact ⟨_, exec_add reg1 reg2 s⟩
  | movLitReg literal regAddress => exact ⟨_, exec_movLitReg literal regAddress s⟩
  | movRegReg reg1 reg2 => exact ⟨_, exec_movRegReg reg1 reg2 s⟩
  | movRegMem regAddress memAddress => exact ⟨_, exec_movRegMem regAddress memAddress s⟩
  | movMemMem memAddr1 memAddr2 => exact ⟨_, exec_movMemMem memAddr1 memAddr2 s⟩
  | movMemReg memAddress regAddress => exact ⟨_, exec_movMemReg memAddress regAddress s⟩

theorem step_eq_next (s : State) : ∃ t, step s = .next t := by
  by_cases hr : s.running
  · rw [step_of_running hr]
    cases fetchInstr s with
    | done i t => exact exec_eq_next i t
    | raised t => exact ⟨t, rfl⟩
  · exact ⟨s, step_of_not_running hr⟩

/-- Settles O8: every instruction has a closed form `.next _`, and a step is the identity, a raised
fetch or an instruction. -/
theorem everyStepAnswersAState : Obligations.EveryStepAnswersAState :=
  ⟨exec_eq_next, step_eq_next⟩

end Sys2Proof.Machine
end

section
/-! PROOFS. The families of spec/41_control.md, spec/42_arithmetic.md and spec/43_move.md: what each
instruction does (R141 to R165). -/

namespace Sys2Proof.Machine

/-! ## Control and arithmetic -/

/-- Settles O10: `HLT` is the opcode of format `Z` with byte 01, its closed form splits on `HLT_MODE`,
and a Halted core does nothing. -/
theorem hltHaltsTheCore : Obligations.HltHaltsTheCore := by
  refine ⟨encodedAs_z .hlt, fun s hm => ⟨?_, stoppedCoreDoesNothing _ (.inl rfl)⟩, fun s hm => ?_⟩
  · rw [exec_hlt, hm]
  · rw [exec_hlt, hm]

theorem sum16_eq_ofNat_mod (v w : Word) :
    sum16 v w = BitVec.ofNat 16 ((v.toNat + w.toNat) % 65536) := by
  apply BitVec.eq_of_toNat_eq
  simp [sum16]

/-- Settles O11: the branches of the closed form of `ADD`. -/
theorem addWritesTheSumToAcr : Obligations.AddWritesTheSumToAcr := by
  refine ⟨fun reg1 reg2 => encodedAs_encode (.add reg1 reg2), fun s ra rb => ?_,
    fun s reg1 reg2 h => ?_, fun s ra reg2 h => ?_⟩
  · rw [exec_add, RegId.ofOffset_offset, RegId.ofOffset_offset, ← sum16_eq_ofNat_mod]
  · rw [exec_add, RegId.ofOffset_bad h]
  · rw [exec_add, RegId.ofOffset_offset, RegId.ofOffset_bad h]

/-! ## Moves to a register -/

/-- Settles O12: the branches of the closed form of `MOV_LIT_REG`. -/
theorem movLitRegWritesTheLiteral : Obligations.MovLitRegWritesTheLiteral := by
  refine ⟨fun literal regAddress => encodedAs_encode (.movLitReg literal regAddress),
    fun s literal r => ?_, fun s literal regAddress h => ?_⟩
  · rw [exec_movLitReg, RegId.ofOffset_offset]
  · rw [exec_movLitReg, RegId.ofOffset_bad h]

/-- Settles O13: the branches of the closed form of `MOV_REG_REG`. -/
theorem movRegRegCopiesARegister : Obligations.MovRegRegCopiesARegister := by
  refine ⟨fun reg1 reg2 => encodedAs_encode (.movRegReg reg1 reg2), fun s ra rb => ?_,
    fun s reg1 reg2 h => ?_, fun s ra reg2 h => ?_⟩
  · rw [exec_movRegReg, RegId.ofOffset_offset, RegId.ofOffset_offset]
  · rw [exec_movRegReg, RegId.ofOffset_bad h]
  · rw [exec_movRegReg, RegId.ofOffset_offset, RegId.ofOffset_bad h]

/-- Settles O16: the branches of the closed form of `MOV_MEM_REG`; the bounds check comes first. -/
theorem movMemRegLoadsAWord : Obligations.MovMemRegLoadsAWord := by
  refine ⟨fun memAddress regAddress => encodedAs_encode (.movMemReg memAddress regAddress),
    fun s a r h => ?_, fun s a regAddress h => ?_, fun s a regAddress ha hr => ?_⟩
  · refine ⟨(s.wordRead a.toNat).setReg r (s.mem.readWord a.toNat), ?_,
      State.reg_setReg_same _ _ _, fun q hq => State.reg_setReg_ne _ hq _, rfl,
      ⟨rfl, rfl, rfl, rfl⟩, rfl⟩
    rw [exec_movMemReg, if_pos h, RegId.ofOffset_offset]
  · rw [exec_movMemReg, if_neg (Nat.not_lt.mpr h)]
  · refine ⟨s.wordRead a.toNat, ?_, rfl⟩
    rw [exec_movMemReg, if_pos ha, RegId.ofOffset_bad hr]

/-! ## Moves to memory -/

/-- The state after an in-bounds word write: the two bytes and the notification, nothing else
changed. -/
def State.wordWritten (s : State) (a : Nat) (v : Word) : State :=
  { s with mem := s.mem.writeWord a v, trace := s.trace ++ told s.regions .write a v }

@[simp] theorem State.wordWritten_mem (s : State) (a : Nat) (v : Word) :
    (s.wordWritten a v).mem = s.mem.writeWord a v := rfl
@[simp] theorem State.wordWritten_fault (s : State) (a : Nat) (v : Word) :
    (s.wordWritten a v).fault = s.fault := rfl

theorem Memory.read_writeWord_high (m : Memory) (a : Nat) (w : Word) :
    (m.writeWord a w).read a = hi8 w := by
  rw [Memory.read_writeWord, if_pos rfl]

theorem Memory.read_writeWord_low (m : Memory) (a : Nat) (w : Word) :
    (m.writeWord a w).read (a + 1) = lo8 w := by
  rw [Memory.read_writeWord, if_neg (Nat.succ_ne_self a), if_pos rfl]

theorem Memory.read_writeWord_ne (m : Memory) {a b : Nat} (w : Word) (h : b ≠ a) (h' : b ≠ a + 1) :
    (m.writeWord a w).read b = m.read b := by
  rw [Memory.read_writeWord, if_neg h, if_neg h']

/-- Settles O14: the branches of the closed form of `MOV_REG_MEM`, the bytes those of a word write. -/
theorem movRegMemStoresAWord : Obligations.MovRegMemStoresAWord := by
  refine ⟨fun regAddress memAddress => encodedAs_encode (.movRegMem regAddress memAddress),
    fun s r a h => ?_, fun s regAddress a h => ?_, fun s r a h => ?_⟩
  · refine ⟨s.wordWritten a.toNat (s.reg r), ?_, Memory.read_writeWord_high _ _ _,
      Memory.read_writeWord_low _ _ _, fun b => Memory.read_writeWord_ne _ _, rfl,
      ⟨rfl, rfl, rfl, rfl⟩, rfl⟩
    rw [exec_movRegMem, RegId.ofOffset_offset]
    dsimp only
    rw [if_pos h]
    rfl
  · rw [exec_movRegMem, RegId.ofOffset_bad h]
  · rw [exec_movRegMem, RegId.ofOffset_offset]
    dsimp only
    rw [if_neg (Nat.not_lt.mpr h)]

/-- Settles O15: the branches of the closed form of `MOV_MEM_MEM`; the word written is the one read
before the write, so an overlap changes nothing. -/
theorem movMemMemCopiesAWord : Obligations.MovMemMemCopiesAWord := by
  refine ⟨fun memAddr1 memAddr2 => encodedAs_encode (.movMemMem memAddr1 memAddr2),
    fun s a b ha hb => ?_, fun s a b ha => ?_, fun s a b ha hb => ?_⟩
  · refine ⟨(s.wordRead a.toNat).wordWritten b.toNat (s.mem.readWord a.toNat), ?_, ?_, ?_,
      fun c => Memory.read_writeWord_ne _ _, rfl, ⟨rfl, rfl, rfl, rfl⟩, rfl⟩
    · rw [exec_movMemMem, if_pos ha, if_pos hb]
      rfl
    · simp [Memory.read_writeWord_high, Memory.readWord]
    · simp [Memory.read_writeWord_low, Memory.readWord]
  · rw [exec_movMemMem, if_neg (Nat.not_lt.mpr ha)]
  · refine ⟨s.wordRead a.toNat, ?_, rfl⟩
    rw [exec_movMemMem, if_pos ha, if_neg (Nat.not_lt.mpr hb)]

end Sys2Proof.Machine
end

section
/-! PROOFS. The families of spec/10_state.md and spec/20_memory.md: the Register File (R22 to R29) and
the four bus accessors (R53, R60 to R63). -/

namespace Sys2Proof.Machine

/-! ## The Register File -/

/-- A name names a register exactly when it is one of `REG_NAMES` (R29). -/
theorem RegId.ofName_eq_none {n : String} : RegId.ofName n = none ↔ n ∉ Config.regNames := by
  constructor
  · intro h hmem
    simp only [Config.regNames, List.mem_cons, List.not_mem_nil, or_false] at hmem
    obtain rfl | rfl | rfl | rfl | rfl | rfl := hmem <;> exact absurd h (by decide)
  · intro h
    rw [RegId.ofName, List.idxOf?_eq_none_iff.mpr h, Option.bind_none]

/-- Settles O20: the offsets and names are evaluated, and what names nothing is
`RegId.ofOffset_eq_none` and `RegId.ofName_eq_none`. -/
theorem registerAddressesAndNames : Obligations.RegisterAddressesAndNames :=
  ⟨rfl, rfl, rfl, rfl, rfl, rfl, by decide, by decide, by decide, by decide, by decide, by decide,
    fun _ => RegId.ofOffset_eq_none, fun _ => RegId.ofName_eq_none⟩

theorem readReg_of_ofRef {id : RegRef} {r : RegId} (h : RegId.ofRef id = some r) (s : State) :
    readReg id s = .done (s.reg r) s := by
  rw [readReg_eq, h]

theorem writeReg_of_ofRef {id : RegRef} {r : RegId} (h : RegId.ofRef id = some r) (v : Word)
    (s : State) : writeReg id v s = .done () (s.setReg r v) := by
  rw [writeReg_eq, h]

theorem readReg_bad {id : RegRef} (h : RegId.ofRef id = none) (s : State) :
    readReg id s = .raised (s.withFault (.invalidRegister id)) := by
  rw [readReg_eq, h]

theorem writeReg_bad {id : RegRef} (h : RegId.ofRef id = none) (v : Word) (s : State) :
    writeReg id v s = .raised (s.withFault (.invalidRegister id)) := by
  rw [writeReg_eq, h]

/-- A register is read back after it was written, by any id that names it. -/
theorem readReg_setReg {id : RegRef} {r : RegId} (h : RegId.ofRef id = some r) (s : State) (v : Word) :
    readReg id (s.setReg r v) = .done v (s.setReg r v) := by
  rw [readReg_of_ofRef h, State.reg_setReg_same]

/-- Settles O21: twice a register's position names it, and any other offset names none. -/
theorem registerWriteThenReadReturnsTheValue : Obligations.RegisterWriteThenReadReturnsTheValue := by
  refine ⟨fun s r v => ?_,
    fun s o v ho => writeReg_bad (id := .offset o) (RegId.ofOffset_eq_none.mpr ho) v s⟩
  have hid : RegId.ofRef (.offset (2 * r.index)) = some r := RegId.ofOffset_eq_some.mpr rfl
  exact ⟨s.setReg r v, writeReg_of_ofRef hid v s, readReg_setReg hid s v,
    fun q hq => State.reg_setReg_ne s hq v, rfl, rfl, rfl, rfl, rfl, rfl⟩

/-! ## The bus -/

theorem getByte_inBounds {a : Nat} {s : State} (h : a < s.memSize) :
    getByte a s = .done (s.mem.read a)
      { s with trace := s.trace ++ told s.regions .read a (zext16 (s.mem.read a)) } := by
  rw [getByte_eq, if_pos h]

theorem getByte_outOfBounds {a : Nat} {s : State} (h : ¬ a < s.memSize) :
    getByte a s = .raised (s.withFault (.memoryOutOfBounds a .byte .read)) := by
  rw [getByte_eq, if_neg h]

/-- The state after an in-bounds byte write: the byte and the notification, nothing else changed. -/
def State.byteWritten (s : State) (a : Nat) (b : Byte) : State :=
  { s with mem := s.mem.write a b, trace := s.trace ++ told s.regions .write a (zext16 b) }

theorem setByte_inBounds {a : Nat} {b : Byte} {s : State} (h : a < s.memSize) :
    setByte a b s = .done () (s.byteWritten a b) := by
  rw [setByte_eq, if_pos h]
  rfl

theorem setByte_outOfBounds {a : Nat} {b : Byte} {s : State} (h : ¬ a < s.memSize) :
    setByte a b s = .raised (s.withFault (.memoryOutOfBounds a .byte .write)) := by
  rw [setByte_eq, if_neg h]

/-- Settles O23: the in-bounds form of each accessor, the bytes those of a memory write. -/
theorem inBoundsAccessesAndTheirNotifications : Obligations.InBoundsAccessesAndTheirNotifications := by
  refine ⟨fun s a h => getByte_inBounds h, fun s a h => getWord_inBounds h, fun s a v h => ?_,
    fun s a v h => ?_⟩
  · exact ⟨s.byteWritten a v, setByte_inBounds h, Memory.read_write_same _ _ _,
      fun b hb => Memory.read_write_ne _ hb v, rfl, ⟨rfl, rfl, rfl, rfl⟩, rfl⟩
  · exact ⟨s.wordWritten a v, setWord_inBounds h, Memory.read_writeWord_high _ _ _,
      Memory.read_writeWord_low _ _ _, fun b => Memory.read_writeWord_ne _ v, rfl,
      ⟨rfl, rfl, rfl, rfl⟩, rfl⟩

/-- Settles O24: the out-of-bounds form of each accessor. -/
theorem outOfBoundsAccessHasNoEffect : Obligations.OutOfBoundsAccessHasNoEffect :=
  ⟨fun _ _ h => ⟨getByte_outOfBounds (Nat.not_lt.mpr h), fun _ => setByte_outOfBounds (Nat.not_lt.mpr h)⟩,
    fun _ _ h =>
      ⟨getWord_outOfBounds (Nat.not_lt.mpr h), fun _ => setWord_outOfBounds (Nat.not_lt.mpr h)⟩⟩

end Sys2Proof.Machine
end

section
/-! PROOFS. The family of spec/45_host_and_device_interface.md and spec/70_reset_and_hazards.md:
construction, the setup phase and the accessors of the host (R182 to R190, R240). -/

namespace Sys2Proof.Machine

/-! ## Construction -/

theorem Session.construct_of_size {n : Nat} (h : 1 ≤ n ∧ n ≤ 65536) (m : HltMode) :
    Session.construct n m = .next ⟨State.construct ⟨⟨n, h⟩, m⟩ RegFile.reset [], .setup⟩ :=
  dif_pos h

theorem Session.construct_of_bad_size {n : Nat} (h : ¬ (1 ≤ n ∧ n ≤ 65536)) (m : HltMode) :
    Session.construct n m = .refused .memSizeOutOfRange :=
  dif_neg h

/-- Every register of the Register File after construction is zero (R41). -/
theorem RegFile.get_reset (r : RegId) : RegFile.reset.get r = 0x0000#16 := by
  cases r <;> rfl

/-- Settles O37: the size check of `construct`, then the fields of the constructed state. -/
theorem constructionGivesTheResetState : Obligations.ConstructionGivesTheResetState := by
  refine ⟨fun n m h1 h2 => ?_, fun n m h => Session.construct_of_bad_size (by omega) m,
    Session.construct_of_size (by decide) .halt⟩
  exact ⟨_, Session.construct_of_size ⟨h1, h2⟩ m, rfl, rfl, rfl, RegFile.get_reset, fun _ => rfl,
    rfl, rfl, rfl⟩

theorem Memory.wf_nil : Memory.wf [] :=
  ⟨List.Pairwise.nil, nofun⟩

/-- Settles O30: the invariant speaks of memory and its size alone, and construction takes both as
they are given. -/
theorem resetHasTheInvariant : Obligations.ResetHasTheInvariant :=
  ⟨⟨Memory.wf_nil, nofun⟩, fun _ _ _ hwf hbound => ⟨hwf, hbound⟩⟩

/-! ## The setup phase -/

/-- `map` answers exactly in the setup phase, and puts the region in front (R183). -/
theorem Session.call_map_eq_next {x y : Session} {dev : DeviceId} {first last : Nat} {p : HostReply} :
    x.call (.map dev first last) = .next (y, p) ↔
      x.phase = .setup ∧ y = ⟨mapRegion dev first last x.core, .setup⟩ ∧ p = .nothing := by
  obtain ⟨core, phase⟩ := x
  cases phase <;> simp [Session.call, Session.map, eq_comm]

theorem Session.call_map_executing {x : Session} (h : x.phase = .executing) (dev : DeviceId)
    (first last : Nat) : x.call (.map dev first last) = .refused .mapAfterSetup := by
  rw [Session.call, Session.map, h]

/-- `loadBlock` answers exactly in the setup phase and for a block that fits (R184). -/
theorem Session.call_loadBlock_eq_next {x y : Session} {bytes : List Byte} {start : Nat}
    {p : HostReply} :
    x.call (.loadBlock bytes start) = .next (y, p) ↔
      x.phase = .setup ∧ start + bytes.length ≤ x.core.memSize ∧
        y = ⟨{ x.core with mem := x.core.mem.writeBlock start bytes }, .setup⟩ ∧ p = .nothing := by
  obtain ⟨core, phase⟩ := x
  cases phase with
  | setup =>
    by_cases hfit : start + bytes.length ≤ core.memSize <;>
      simp [Session.call, Session.loadBlock, hfit, eq_comm]
  | executing => simp [Session.call, Session.loadBlock]

theorem Session.call_loadBlock_executing {x : Session} (h : x.phase = .executing) (bytes : List Byte)
    (start : Nat) : x.call (.loadBlock bytes start) = .refused .loadBlockAfterSetup := by
  rw [Session.call, Session.loadBlock, h]

theorem findRegion_cons (r : Region) (regions : List Region) (a : Nat) :
    findRegion (r :: regions) a =
      if r.first ≤ a ∧ a ≤ r.last then some r else findRegion regions a := by
  by_cases h : r.first ≤ a ∧ a ≤ r.last
  · rw [if_pos h]
    exact List.find?_cons_of_pos (p := fun q : Region => q.contains a) (Region.contains_iff.mpr h)
  · rw [if_neg h]
    exact List.find?_cons_of_neg (p := fun q : Region => q.contains a) (mt Region.contains_iff.mp h)

/-- Settles O26: the region in front answers exactly for its range (`findRegion_cons`), and `step()`
leaves the phase in which `map` answers. -/
theorem mapShadowsEarlierRegions : Obligations.MapShadowsEarlierRegions := by
  refine ⟨fun x dev first last h => ?_, fun x t ht => Session.call_step_eq_next.mpr ⟨t, ht, rfl, rfl⟩,
    fun x dev first last h => Session.call_map_executing h dev first last⟩
  refine ⟨mapRegion dev first last x.core, Session.call_map_eq_next.mpr ⟨h, rfl, rfl⟩, rfl, rfl,
    fun a h1 h2 => (findRegion_cons _ _ a).trans (if_pos ⟨h1, h2⟩),
    fun a ha => (findRegion_cons _ _ a).trans (if_neg ?_)⟩
  rintro ⟨h1, h2⟩
  dsimp only at h1 h2
  omega

/-- A read after a block write: below the start as before, from it on the block's byte where it has
one. -/
theorem Memory.read_writeBlock (m : Memory) (start : Nat) (bytes : List Byte) (a : Nat) :
    (m.writeBlock start bytes).read a =
      if a < start then m.read a else (bytes[a - start]?).getD (m.read a) := by
  induction bytes generalizing m start with
  | nil => simp [Memory.writeBlock]
  | cons b rest ih =>
    rw [Memory.writeBlock, ih, Memory.read_write]
    obtain hlt | rfl | hgt := Nat.lt_trichotomy a start
    · rw [if_pos (by omega), if_neg (by omega), if_pos hlt]
    · simp
    · have hidx : a - start = a - (start + 1) + 1 := by omega
      rw [if_neg (by omega), if_neg (by omega), if_neg (by omega), hidx, List.getElem?_cons_succ]

theorem Memory.read_writeBlock_of_getElem? (m : Memory) (start : Nat) {bytes : List Byte} {k : Nat}
    {b : Byte} (h : bytes[k]? = some b) : (m.writeBlock start bytes).read (start + k) = b := by
  rw [Memory.read_writeBlock, if_neg (by omega), Nat.add_sub_cancel_left, h, Option.getD_some]

theorem Memory.read_writeBlock_outside (m : Memory) {start : Nat} {bytes : List Byte} {a : Nat}
    (h : a < start ∨ start + bytes.length ≤ a) : (m.writeBlock start bytes).read a = m.read a := by
  rw [Memory.read_writeBlock]
  obtain h | h := h
  · rw [if_pos h]
  · rw [if_neg (by omega), List.getElem?_eq_none (by omega), Option.getD_none]

/-- Settles O39: a block write is read back byte by byte, and `step()` leaves the phase in which
`loadBlock` answers. -/
theorem loadBlockCopiesTheBlock : Obligations.LoadBlockCopiesTheBlock := by
  refine ⟨fun x bytes start h hfit => ?_, fun x bytes start h hfit => ?_,
    fun x bytes start h => Session.call_loadBlock_executing h bytes start, fun x t bytes start ht => ?_⟩
  · exact ⟨_, Session.call_loadBlock_eq_next.mpr ⟨h, hfit, rfl, rfl⟩,
      fun _ _ => Memory.read_writeBlock_of_getElem? _ start,
      fun _ => Memory.read_writeBlock_outside _, rfl, rfl, rfl, rfl, rfl, rfl⟩
  · rw [Session.call, Session.loadBlock, h]
    exact if_neg (Nat.not_le.mpr hfit)
  · exact ⟨⟨t, .executing⟩, Session.call_step_eq_next.mpr ⟨t, ht, rfl, rfl⟩, rfl,
      Session.call_loadBlock_executing rfl bytes start⟩

/-! ## The accessors of the host -/

theorem Session.call_readReg (x : Session) (id : RegRef) :
    x.call (.readReg id) = x.access .word (Machine.readReg id x.core) := rfl
theorem Session.call_writeReg (x : Session) (id : RegRef) (v : Word) :
    x.call (.writeReg id v) = x.access (fun _ => .nothing) (Machine.writeReg id v x.core) := rfl
theorem Session.call_getByte (x : Session) (a : Nat) :
    x.call (.getByte a) = x.access .byte (Machine.getByte a x.core) := rfl
theorem Session.call_getWord (x : Session) (a : Nat) :
    x.call (.getWord a) = x.access .word (Machine.getWord a x.core) := rfl
theorem Session.call_setByte (x : Session) (a : Nat) (b : Byte) :
    x.call (.setByte a b) = x.access (fun _ => .nothing) (Machine.setByte a b x.core) := rfl
theorem Session.call_setWord (x : Session) (a : Nat) (w : Word) :
    x.call (.setWord a w) = x.access (fun _ => .nothing) (Machine.setWord a w x.core) := rfl

/-- Settles O38: the host's register accessors are the core's (`readReg`, `writeReg`) on the session's
core. -/
theorem hostRegisterAccessors : Obligations.HostRegisterAccessors := by
  refine ⟨fun x id id' r v h h' => ?_, fun x id v h => ⟨?_, ?_⟩⟩
  · refine ⟨⟨x.core.setReg r v, x.phase⟩, ?_, ?_, fun q hq => State.reg_setReg_ne _ hq v, rfl, rfl,
      ⟨rfl, rfl, rfl, rfl⟩, rfl⟩
    · rw [Session.call_writeReg, writeReg_of_ofRef h, Session.access_done]
    · rw [Session.call_readReg, readReg_setReg h', Session.access_done]
  · rw [Session.call_readReg, readReg_bad h, Session.access_raised]
  · rw [Session.call_writeReg, writeReg_bad h, Session.access_raised]

/-- Settles O43: the host's bus accessors are the core's on the session's core, whose forms in and out
of bounds are O23 and O24. -/
theorem hostBusAccessors : Obligations.HostBusAccessors := by
  obtain ⟨-, -, hsetByte, hsetWord⟩ := inBoundsAccessesAndTheirNotifications
  refine ⟨fun x a h => ?_, fun x a h => ?_, fun x a v h => ?_, fun x a v h => ?_,
    fun x a h => ⟨?_, fun v => ?_⟩, fun x a h => ⟨?_, fun v => ?_⟩⟩
  · rw [Session.call_getByte, getByte_inBounds h, Session.access_done]
    rfl
  · rw [Session.call_getWord, getWord_inBounds h, Session.access_done]
    rfl
  · obtain ⟨t, ht, hframe⟩ := hsetByte x.core a v h
    exact ⟨t, by rw [Session.call_setByte, ht, Session.access_done], hframe⟩
  · obtain ⟨t, ht, hframe⟩ := hsetWord x.core a v h
    exact ⟨t, by rw [Session.call_setWord, ht, Session.access_done], hframe⟩
  · rw [Session.call_getByte, getByte_outOfBounds (Nat.not_lt.mpr h), Session.access_raised]
  · rw [Session.call_setByte, setByte_outOfBounds (Nat.not_lt.mpr h), Session.access_raised]
  · rw [Session.call_getWord, getWord_outOfBounds (Nat.not_lt.mpr h), Session.access_raised]
  · rw [Session.call_setWord, setWord_outOfBounds (Nat.not_lt.mpr h), Session.access_raised]

end Sys2Proof.Machine
end

section
/-! PROOFS. What an instruction can do, said once for all instructions, and the frames that follow
(spec/40_engine.md R125, spec/42_arithmetic.md, spec/43_move.md). -/

namespace Sys2Proof.Machine

/-! ## A condition latched -/

@[simp] theorem State.withFault_regs (s : State) (c : FatalCondition) :
    (s.withFault c).regs = s.regs := rfl
@[simp] theorem State.withFault_run (s : State) (c : FatalCondition) : (s.withFault c).run = s.run := rfl
@[simp] theorem State.withFault_reg (s : State) (c : FatalCondition) (r : RegId) :
    (s.withFault c).reg r = s.reg r := rfl

/-! ## The source read -/

/-- What the source read of an instruction tells: the word at a memory source in bounds (R125, point 3). -/
def State.sourceTold (s : State) : Instr → List Notification
  | .movMemMem a _ | .movMemReg a _ =>
    if a.toNat + 1 < s.memSize then told s.regions .read a.toNat (s.mem.readWord a.toNat) else []
  | _ => []

/-- The state after the source read of an instruction: the notification made, nothing else changed. -/
def State.sourceRead (s : State) (i : Instr) : State :=
  { s with trace := s.trace ++ s.sourceTold i }

@[simp] theorem State.sourceRead_regs (s : State) (i : Instr) : (s.sourceRead i).regs = s.regs := rfl
@[simp] theorem State.sourceRead_fault (s : State) (i : Instr) : (s.sourceRead i).fault = s.fault := rfl

theorem State.sourceRead_of_told_nil {s : State} {i : Instr} (h : s.sourceTold i = []) :
    s.sourceRead i = s := by
  rw [State.sourceRead, h, List.append_nil]

theorem State.sourceRead_movMemMem {s : State} {a : Word} (h : a.toNat + 1 < s.memSize) (b : Word) :
    s.sourceRead (.movMemMem a b) = s.wordRead a.toNat := by
  rw [State.sourceRead, State.sourceTold, if_pos h]
  rfl

theorem State.sourceRead_movMemReg {s : State} {a : Word} (h : a.toNat + 1 < s.memSize) (o : Word) :
    s.sourceRead (.movMemReg a o) = s.wordRead a.toNat := by
  rw [State.sourceRead, State.sourceTold, if_pos h]
  rfl

/-! ## Every way an instruction can go -/

/-- The register an instruction writes when its operands are valid, and the value. -/
inductive WritesRegister (s : State) : Instr → RegId → Word → Prop where
  | add {reg1 reg2 : Word} {ra rb : RegId} (h1 : reg1 = ra.offset) (h2 : reg2 = rb.offset) :
    WritesRegister s (.add reg1 reg2) .acr (sum16 (s.reg ra) (s.reg rb))
  | movLitReg {literal o : Word} {r : RegId} (h : o = r.offset) :
    WritesRegister s (.movLitReg literal o) r literal
  | movRegReg {reg1 reg2 : Word} {ra rb : RegId} (h1 : reg1 = ra.offset) (h2 : reg2 = rb.offset) :
    WritesRegister s (.movRegReg reg1 reg2) rb (s.reg ra)
  | movMemReg {a o : Word} {r : RegId} (ha : a.toNat + 1 < s.memSize) (h : o = r.offset) :
    WritesRegister s (.movMemReg a o) r (s.mem.readWord a.toNat)

/-- The address an instruction stores to when its operands are valid, and the word. -/
inductive StoresWord (s : State) : Instr → Word → Word → Prop where
  | movRegMem {o a : Word} {r : RegId} (h : o = r.offset) (ha : a.toNat + 1 < s.memSize) :
    StoresWord s (.movRegMem o a) a (s.reg r)
  | movMemMem {a b : Word} (ha : a.toNat + 1 < s.memSize) (hb : b.toNat + 1 < s.memSize) :
    StoresWord s (.movMemMem a b) b (s.mem.readWord a.toNat)

/-- The conditions an operand that is not valid can raise (R211, R212). -/
inductive OperandFault : Instr → FatalCondition → Prop where
  | register {i : Instr} (h : i.length = 5) (id : RegRef) : OperandFault i (.invalidRegister id)
  | write {i : Instr} (h : i.length = 5) (a : Nat) : OperandFault i (.memoryOutOfBounds a .word .write)
  | readMemMem (a b : Word) : OperandFault (.movMemMem a b) (.memoryOutOfBounds a.toNat .word .read)
  | readMemReg (a o : Word) : OperandFault (.movMemReg a o) (.memoryOutOfBounds a.toNat .word .read)

/-- Every way an instruction can go: after its source read a register or a word is written, or an
operand raises; or it is `NOP` or `HLT`. -/
inductive Effect (s : State) : Instr → State → Prop where
  | nop : Effect s .nop s
  | halted (h : s.cfg.hltMode = .halt) : Effect s .hlt { s with run := .halted }
  | undecoded (h : s.cfg.hltMode = .invalid) :
    Effect s .hlt (s.withFault (.invalidInstruction 0x01#8 (s.regs.ip - 1#16)))
  | raised {i : Instr} {u : State} {c : FatalCondition} (hu : s.sourceRead i = u)
    (hi : i.wellFormed s.cfg = false) (hc : OperandFault i c) : Effect s i (u.withFault c)
  | wroteRegister {i : Instr} {u : State} {r : RegId} {v : Word} (hu : s.sourceRead i = u)
    (h : WritesRegister s i r v) : Effect s i (u.setReg r v)
  | storedWord {i : Instr} {u : State} {a v : Word} (hu : s.sourceRead i = u)
    (h : StoresWord s i a v) : Effect s i (u.wordWritten a.toNat v)

/-! ### Operands -/

theorem registerOperand_cases (o : Word) : (∃ r : RegId, o = r.offset) ∨ BadRegister o := by
  cases h : RegId.ofOffset o.toNat with
  | none => exact .inr (RegId.ofOffset_eq_none.mp h)
  | some r => exact .inl ⟨r, RegId.ofOffset_eq_some_iff_offset.mp h⟩

theorem validRegister_offset (r : RegId) : Operand.validRegister r.offset = true := by
  rw [validRegister_eq_isSome, RegId.ofOffset_offset, Option.isSome_some]

theorem validRegister_of_bad {o : Word} (h : BadRegister o) : Operand.validRegister o = false := by
  rw [validRegister_eq_isSome, RegId.ofOffset_bad h, Option.isSome_none]

theorem validMemory_of_inBounds {s : State} {a : Word} (h : a.toNat + 1 < s.memSize) :
    Operand.validMemory s.cfg a = true :=
  decide_eq_true h

theorem validMemory_of_outOfBounds {s : State} {a : Word} (h : ¬ a.toNat + 1 < s.memSize) :
    Operand.validMemory s.cfg a = false :=
  decide_eq_false h

theorem WritesRegister.wellFormed {s : State} {i : Instr} {r : RegId} {v : Word}
    (h : WritesRegister s i r v) : i.wellFormed s.cfg = true := by
  cases h with
  | add h1 h2 => simp [Instr.wellFormed, h1, h2, validRegister_offset]
  | movLitReg h => simp [Instr.wellFormed, h, validRegister_offset]
  | movRegReg h1 h2 => simp [Instr.wellFormed, h1, h2, validRegister_offset]
  | movMemReg ha h => simp [Instr.wellFormed, h, validRegister_offset, validMemory_of_inBounds ha]

theorem StoresWord.wellFormed {s : State} {i : Instr} {a v : Word} (h : StoresWord s i a v) :
    i.wellFormed s.cfg = true := by
  cases h with
  | movRegMem h ha => simp [Instr.wellFormed, h, validRegister_offset, validMemory_of_inBounds ha]
  | movMemMem ha hb => simp [Instr.wellFormed, validMemory_of_inBounds ha, validMemory_of_inBounds hb]

theorem StoresWord.inBounds {s : State} {i : Instr} {a v : Word} (h : StoresWord s i a v) :
    a.toNat + 1 < s.memSize := by
  cases h with
  | movRegMem _ ha => exact ha
  | movMemMem _ hb => exact hb

/-! ### One instruction at a time -/

section
variable {s t : State}

theorem effect_of_exec_hlt (h : exec .hlt s = .next t) : Effect s .hlt t := by
  rw [exec_hlt] at h
  cases hm : s.cfg.hltMode with
  | halt =>
    rw [hm] at h
    cases h
    exact .halted hm
  | invalid =>
    rw [hm] at h
    cases h
    exact .undecoded hm

theorem effect_of_exec_add {reg1 reg2 : Word} (h : exec (.add reg1 reg2) s = .next t) :
    Effect s (.add reg1 reg2) t := by
  have hu : s.sourceRead (.add reg1 reg2) = s := State.sourceRead_of_told_nil rfl
  obtain ⟨ra, rfl⟩ | h1 := registerOperand_cases reg1
  · obtain ⟨rb, rfl⟩ | h2 := registerOperand_cases reg2
    · rw [exec_add, RegId.ofOffset_offset, RegId.ofOffset_offset] at h
      cases h
      exact .wroteRegister hu (.add rfl rfl)
    · rw [exec_add, RegId.ofOffset_offset, RegId.ofOffset_bad h2] at h
      cases h
      exact .raised hu (by simp [Instr.wellFormed, validRegister_of_bad h2]) (.register rfl _)
  · rw [exec_add, RegId.ofOffset_bad h1] at h
    cases h
    exact .raised hu (by simp [Instr.wellFormed, validRegister_of_bad h1]) (.register rfl _)

theorem effect_of_exec_movLitReg {literal o : Word} (h : exec (.movLitReg literal o) s = .next t) :
    Effect s (.movLitReg literal o) t := by
  have hu : s.sourceRead (.movLitReg literal o) = s := State.sourceRead_of_told_nil rfl
  obtain ⟨r, rfl⟩ | ho := registerOperand_cases o
  · rw [exec_movLitReg, RegId.ofOffset_offset] at h
    cases h
    exact .wroteRegister hu (.movLitReg rfl)
  · rw [exec_movLitReg, RegId.ofOffset_bad ho] at h
    cases h
    exact .raised hu (validRegister_of_bad ho) (.register rfl _)

theorem effect_of_exec_movRegReg {reg1 reg2 : Word} (h : exec (.movRegReg reg1 reg2) s = .next t) :
    Effect s (.movRegReg reg1 reg2) t := by
  have hu : s.sourceRead (.movRegReg reg1 reg2) = s := State.sourceRead_of_told_nil rfl
  obtain ⟨ra, rfl⟩ | h1 := registerOperand_cases reg1
  · obtain ⟨rb, rfl⟩ | h2 := registerOperand_cases reg2
    · rw [exec_movRegReg, RegId.ofOffset_offset, RegId.ofOffset_offset] at h
      cases h
      exact .wroteRegister hu (.movRegReg rfl rfl)
    · rw [exec_movRegReg, RegId.ofOffset_offset, RegId.ofOffset_bad h2] at h
      cases h
      exact .raised hu (by simp [Instr.wellFormed, validRegister_of_bad h2]) (.register rfl _)
  · rw [exec_movRegReg, RegId.ofOffset_bad h1] at h
    cases h
    exact .raised hu (by simp [Instr.wellFormed, validRegister_of_bad h1]) (.register rfl _)

theorem effect_of_exec_movRegMem {o a : Word} (h : exec (.movRegMem o a) s = .next t) :
    Effect s (.movRegMem o a) t := by
  have hu : s.sourceRead (.movRegMem o a) = s := State.sourceRead_of_told_nil rfl
  obtain ⟨r, rfl⟩ | ho := registerOperand_cases o
  · rw [exec_movRegMem, RegId.ofOffset_offset] at h
    dsimp only at h
    by_cases ha : a.toNat + 1 < s.memSize
    · rw [if_pos ha] at h
      cases h
      exact .storedWord hu (.movRegMem rfl ha)
    · rw [if_neg ha] at h
      cases h
      exact .raised hu (by simp [Instr.wellFormed, validMemory_of_outOfBounds ha]) (.write rfl _)
  · rw [exec_movRegMem, RegId.ofOffset_bad ho] at h
    cases h
    exact .raised hu (by simp [Instr.wellFormed, validRegister_of_bad ho]) (.register rfl _)

theorem effect_of_exec_movMemMem {a b : Word} (h : exec (.movMemMem a b) s = .next t) :
    Effect s (.movMemMem a b) t := by
  rw [exec_movMemMem] at h
  by_cases ha : a.toNat + 1 < s.memSize
  · have hu := State.sourceRead_movMemMem ha b
    rw [if_pos ha] at h
    by_cases hb : b.toNat + 1 < s.memSize
    · rw [if_pos hb] at h
      cases h
      exact .storedWord hu (.movMemMem ha hb)
    · rw [if_neg hb] at h
      cases h
      exact .raised hu (by simp [Instr.wellFormed, validMemory_of_outOfBounds hb]) (.write rfl _)
  · rw [if_neg ha] at h
    cases h
    exact .raised (State.sourceRead_of_told_nil (if_neg ha))
      (by simp [Instr.wellFormed, validMemory_of_outOfBounds ha]) (.readMemMem a b)

theorem effect_of_exec_movMemReg {a o : Word} (h : exec (.movMemReg a o) s = .next t) :
    Effect s (.movMemReg a o) t := by
  rw [exec_movMemReg] at h
  by_cases ha : a.toNat + 1 < s.memSize
  · have hu := State.sourceRead_movMemReg ha o
    rw [if_pos ha] at h
    obtain ⟨r, rfl⟩ | ho := registerOperand_cases o
    · rw [RegId.ofOffset_offset] at h
      cases h
      exact .wroteRegister hu (.movMemReg ha rfl)
    · rw [RegId.ofOffset_bad ho] at h
      cases h
      exact .raised hu (by simp [Instr.wellFormed, validRegister_of_bad ho]) (.register rfl _)
  · rw [if_neg ha] at h
    cases h
    exact .raised (State.sourceRead_of_told_nil (if_neg ha))
      (by simp [Instr.wellFormed, validMemory_of_outOfBounds ha]) (.readMemReg a o)

/-- What any instruction does is one of the effects. -/
theorem effect_of_exec {i : Instr} (h : exec i s = .next t) : Effect s i t := by
  cases i with
  | nop =>
    cases h
    exact .nop
  | hlt => exact effect_of_exec_hlt h
  | add => exact effect_of_exec_add h
  | movLitReg => exact effect_of_exec_movLitReg h
  | movRegReg => exact effect_of_exec_movRegReg h
  | movRegMem => exact effect_of_exec_movRegMem h
  | movMemMem => exact effect_of_exec_movMemMem h
  | movMemReg => exact effect_of_exec_movMemReg h

end

/-! ## What an effect changes -/

namespace Effect
variable {s t : State} {i : Instr}

theorem cfg_eq (h : Effect s i t) : t.cfg = s.cfg := by
  cases h with
  | nop | halted | undecoded => rfl
  | raised hu | wroteRegister hu | storedWord hu =>
    subst hu
    rfl

theorem regions_eq (h : Effect s i t) : t.regions = s.regions := by
  cases h with
  | nop | halted | undecoded => rfl
  | raised hu | wroteRegister hu | storedWord hu =>
    subst hu
    rfl

/-- Only `HLT` changes `run`, and only to Halted. -/
theorem run_eq (h : Effect s i t) :
    t.run = s.run ∨ i = .hlt ∧ s.cfg.hltMode = .halt ∧ t.run = .halted := by
  cases h with
  | nop | undecoded => exact .inl rfl
  | halted hm => exact .inr ⟨rfl, hm, rfl⟩
  | raised hu | wroteRegister hu | storedWord hu =>
    subst hu
    exact .inl rfl

/-- With no condition latched before it, an instruction raises one exactly when it is not well
formed. -/
theorem fault_eq_none_iff (h : Effect s i t) (hs : s.fault = none) :
    t.fault = none ↔ i.wellFormed s.cfg = true := by
  cases h with
  | nop => simp [hs, Instr.wellFormed]
  | halted hm => simp [hs, Instr.wellFormed, hm]
  | undecoded hm => simp [Instr.wellFormed, hm]
  | raised hu hi => simp [hi]
  | wroteRegister hu hw =>
    subst hu
    simp [hs, hw.wellFormed]
  | storedWord hu hw =>
    subst hu
    simp [hs, hw.wellFormed]

theorem fault_eq_of_wellFormed (h : Effect s i t) (hi : i.wellFormed s.cfg = true) :
    t.fault = s.fault := by
  cases h with
  | nop | halted => rfl
  | undecoded hm => simp [Instr.wellFormed, hm] at hi
  | raised hu hi' =>
    rw [hi] at hi'
    cases hi'
  | wroteRegister hu | storedWord hu =>
    subst hu
    rfl

/-- A register changes only as the one the instruction writes. -/
theorem reg_eq (h : Effect s i t) {r : RegId} (hr : ∀ v, ¬ WritesRegister s i r v) :
    t.reg r = s.reg r := by
  cases h with
  | nop | halted | undecoded => rfl
  | raised hu | storedWord hu =>
    subst hu
    rfl
  | @wroteRegister _ _ q v hu hw =>
    subst hu
    have hne : r ≠ q := fun hrq => hr v (hrq ▸ hw)
    exact State.reg_setReg_ne _ hne v

theorem regs_eq (h : Effect s i t) (hr : ∀ r v, ¬ WritesRegister s i r v) : t.regs = s.regs := by
  cases h with
  | nop | halted | undecoded => rfl
  | raised hu | storedWord hu =>
    subst hu
    rfl
  | wroteRegister _ hw => exact absurd hw (hr _ _)

theorem regs_eq_of_illFormed (h : Effect s i t) (hi : i.wellFormed s.cfg = false) :
    t.regs = s.regs := by
  refine h.regs_eq fun r v hw => ?_
  rw [hw.wellFormed] at hi
  cases hi

/-- A byte changes only as one of the two the instruction stores to. -/
theorem read_eq (h : Effect s i t) {b : Nat}
    (hb : ∀ a v, StoresWord s i a v → b ≠ a.toNat ∧ b ≠ a.toNat + 1) :
    t.mem.read b = s.mem.read b := by
  cases h with
  | nop | halted | undecoded => rfl
  | raised hu | wroteRegister hu =>
    subst hu
    rfl
  | storedWord hu hw =>
    subst hu
    obtain ⟨h1, h2⟩ := hb _ _ hw
    exact Memory.read_writeWord_ne _ _ h1 h2

theorem read_eq_of_illFormed (h : Effect s i t) (hi : i.wellFormed s.cfg = false) (b : Nat) :
    t.mem.read b = s.mem.read b := by
  refine h.read_eq fun a v hw => ?_
  rw [hw.wellFormed] at hi
  cases hi

/-- Without a store, an instruction tells its source read alone. -/
theorem trace_eq (h : Effect s i t) (ha : ∀ a v, ¬ StoresWord s i a v) :
    t.trace = s.trace ++ s.sourceTold i := by
  cases h with
  | nop | halted | undecoded => exact (List.append_nil _).symm
  | raised hu | wroteRegister hu =>
    subst hu
    rfl
  | storedWord _ hw => exact absurd hw (ha _ _)

end Effect

/-- Settles O17: every instruction answers a state, and its effect latches a condition exactly when the
instruction is not well formed. -/
theorem instructionRaisesExactlyWhenIllFormed : Obligations.InstructionRaisesExactlyWhenIllFormed := by
  intro i s hs
  obtain ⟨t, ht⟩ := exec_eq_next i s
  exact ⟨t, ht, (effect_of_exec ht).fault_eq_none_iff hs⟩

/-! ## Frames -/

/-- The frame of an instruction that is not `HLT` and stores nothing, but for the register it writes. -/
theorem Effect.frame_of_no_store {s t : State} {i : Instr} {l : List Notification}
    (h : Effect s i t) (hi : i ≠ .hlt) (ha : ∀ a v, ¬ StoresWord s i a v)
    (hl : s.trace ++ s.sourceTold i = l) :
    (∀ b, t.mem.read b = s.mem.read b) ∧ t.cfg = s.cfg ∧ t.regions = s.regions ∧ t.run = s.run ∧
      t.trace = l ∧ (i.wellFormed s.cfg = true → t.fault = s.fault) ∧
      (i.wellFormed s.cfg = false → t.regs = s.regs) :=
  ⟨fun _ => h.read_eq fun a v hw => absurd hw (ha a v), h.cfg_eq, h.regions_eq,
    h.run_eq.resolve_right fun hhlt => hi hhlt.1, (h.trace_eq ha).trans hl, h.fault_eq_of_wellFormed,
    h.regs_eq_of_illFormed⟩

/-- Settles O18: none of the four forms stores a word, and each writes its destination register only;
the rest is `Effect.frame_of_no_store`. -/
theorem registerFormsFrame : Obligations.RegisterFormsFrame := by
  refine ⟨fun s t reg1 reg2 h => ?_, fun s t literal o h => ?_, fun s t reg1 reg2 h => ?_,
    fun s t a o h => ?_⟩ <;> have he := effect_of_exec h
  · refine ⟨fun q hq => he.reg_eq fun v hw => ?_,
      he.frame_of_no_store nofun nofun (List.append_nil _)⟩
    cases hw
    exact hq rfl
  · refine ⟨fun q hq => he.reg_eq fun v hw => ?_,
      he.frame_of_no_store nofun nofun (List.append_nil _)⟩
    cases hw with
    | movLitReg ho => exact hq ho.symm
  · refine ⟨fun q hq => he.reg_eq fun v hw => ?_,
      he.frame_of_no_store nofun nofun (List.append_nil _)⟩
    cases hw with
    | movRegReg _ ho => exact hq ho.symm
  · refine ⟨fun q hq => he.reg_eq fun v hw => ?_, he.frame_of_no_store nofun nofun rfl⟩
    cases hw with
    | movMemReg _ ho => exact hq ho.symm

/-- The frame of an instruction that stores a word at `a` and writes no register. -/
theorem Effect.frame_of_store {s t : State} {i : Instr} {a : Word} (h : Effect s i t) (hi : i ≠ .hlt)
    (hr : ∀ r v, ¬ WritesRegister s i r v) (ha : ∀ a' v, StoresWord s i a' v → a' = a) :
    t.regs = s.regs ∧ (∀ b, b ≠ a.toNat → b ≠ a.toNat + 1 → t.mem.read b = s.mem.read b) ∧
      t.cfg = s.cfg ∧ t.regions = s.regions ∧ t.run = s.run ∧
      (i.wellFormed s.cfg = true → t.fault = s.fault) :=
  ⟨h.regs_eq hr, fun _ h1 h2 => h.read_eq fun _ _ hw => ha _ _ hw ▸ ⟨h1, h2⟩, h.cfg_eq,
    h.regions_eq, h.run_eq.resolve_right fun hhlt => hi hhlt.1, h.fault_eq_of_wellFormed⟩

/-- Settles O19: both forms write no register and store at their second operand; an ill-formed one
stores nothing. -/
theorem storeFormsFrame : Obligations.StoreFormsFrame := by
  refine ⟨fun s t o a h => ?_, fun s t a b h => ?_⟩
  · have he := effect_of_exec h
    have hstore : ∀ a' v, StoresWord s (.movRegMem o a) a' v → a' = a := by
      rintro _ _ ⟨⟩
      rfl
    obtain ⟨hregs, hmem, hcfg, hregions, hrun, hfault⟩ := he.frame_of_store nofun nofun hstore
    refine ⟨hregs, hmem, hcfg, hregions, hrun, hfault, fun hi => ⟨?_, he.read_eq_of_illFormed hi⟩⟩
    have htrace := he.trace_eq fun _ _ hw => by
      rw [hw.wellFormed] at hi
      cases hi
    exact htrace.trans (List.append_nil _)
  · have he := effect_of_exec h
    have hstore : ∀ a' v, StoresWord s (.movMemMem a b) a' v → a' = b := by
      rintro _ _ ⟨⟩
      rfl
    obtain ⟨hregs, hmem, hcfg, hregions, hrun, hfault⟩ := he.frame_of_store nofun nofun hstore
    exact ⟨hregs, hmem, hcfg, hregions, hrun, hfault, he.read_eq_of_illFormed⟩

end Sys2Proof.Machine
end

section
/-! PROOFS. What a step can do, said once, and the whole-machine rules that follow (spec/10_state.md,
spec/20_memory.md, spec/40_engine.md, spec/60_exceptions.md). -/

namespace Sys2Proof.Machine

/-! ## Every way a step can go -/

/-- A condition raised by the fetches of a step, with how far `ip` has advanced and what has been told
before it (the fetch rows of R215). -/
inductive FetchFault (s : State) : Nat → List Notification → FatalCondition → Prop where
  | opcode : FetchFault s 0 [] (.memoryOutOfBounds s.regs.ip.toNat .byte .read)
  | undecoded : FetchFault s 1 s.opcodeTold (.invalidInstruction s.opcodeByte s.regs.ip)
  | operand1 : FetchFault s 1 s.opcodeTold (.memoryOutOfBounds (s.regs.ip + 1#16).toNat .word .read)
  | operand2 :
    FetchFault s 3 (s.opcodeTold ++ s.operandTold (s.regs.ip + 1#16))
      (.memoryOutOfBounds (s.regs.ip + 3#16).toNat .word .read)

/-- The instruction a running core finds at `ip`, all its fetches in bounds. -/
structure Fetched (s : State) (i : Instr) : Prop where
  opcode : s.opcodeByte = i.opcode.byte
  decodable : i.decodable s.cfg.hltMode = true
  fetchable : s.fetchable i.length
  operands : ∀ op, i.opcode = .w2 op → i = op.instr s.operand1 s.operand2

/-- Every way a step can go: nothing on a stopped core, a fetch that raises, or an instruction after
its fetches. -/
inductive StepEffect (s : State) : State → Prop where
  | stopped (hr : ¬ s.running) : StepEffect s s
  | fetchFault {n : Nat} {notes : List Notification} {c : FatalCondition} (hr : s.running)
    (hf : FetchFault s n notes c) : StepEffect s ((s.advanced n notes).withFault c)
  | executed {i : Instr} {t : State} (hr : s.running) (hf : Fetched s i)
    (he : Effect (s.afterFetch i.length) i t) : StepEffect s t

theorem State.advanced_zero (s : State) : s.advanced 0 [] = s := by
  simp [State.advanced]

theorem fetched_z {s : State} {op : OpZ} (h0 : s.regs.ip.toNat < s.memSize)
    (hop : Opcode.ofByte s.cfg.hltMode s.opcodeByte = some (.z op)) : Fetched s op.instr where
  opcode := by rw [op.opcode_instr, (Opcode.ofByte_eq_some.mp hop).1]
  decodable := Instr.decodable_of_ofByte hop op.opcode_instr
  fetchable := by
    rw [op.length_instr]
    exact ⟨h0, nofun⟩
  operands op' h := by
    rw [op.opcode_instr] at h
    cases h

theorem fetched_w2 {s : State} {op : OpW2} (hf : s.fetchable 5)
    (hop : Opcode.ofByte s.cfg.hltMode s.opcodeByte = some (.w2 op)) :
    Fetched s (op.instr s.operand1 s.operand2) where
  opcode := by rw [op.opcode_instr, (Opcode.ofByte_eq_some.mp hop).1]
  decodable := Instr.decodable_of_ofByte hop (op.opcode_instr _ _)
  fetchable := by rwa [op.length_instr]
  operands op' h := by
    rw [op.opcode_instr] at h
    cases h
    rfl

/-- What any step does is one of the effects. -/
theorem effect_of_step {s t : State} (h : step s = .next t) : StepEffect s t := by
  by_cases hr : s.running
  · obtain ⟨-, rfl⟩ | ⟨-, -, rfl⟩ | ⟨op, h0, hop, hex⟩ | ⟨-, -, -, -, rfl⟩ | ⟨-, -, -, -, -, rfl⟩ |
      ⟨op, hf, hop, hex⟩ := step_cases hr h
    · have hopcode : StepEffect s ((s.advanced 0 []).withFault _) := .fetchFault hr .opcode
      rwa [s.advanced_zero] at hopcode
    · exact .fetchFault hr .undecoded
    · exact .executed hr (fetched_z h0 hop) (by simpa using effect_of_exec hex)
    · exact .fetchFault hr .operand1
    · exact .fetchFault hr .operand2
    · exact .executed hr (fetched_w2 hf hop) (by simpa using effect_of_exec hex)
  · rw [step_of_not_running hr] at h
    cases h
    exact .stopped hr

/-! ## The state after the fetches -/

@[simp] theorem State.afterFetch_run (s : State) (n : Nat) : (s.afterFetch n).run = s.run := rfl
@[simp] theorem State.afterFetch_ip (s : State) (n : Nat) :
    (s.afterFetch n).regs.ip = s.regs.ip + BitVec.ofNat 16 n := rfl

theorem State.afterFetch_reg_ne (s : State) (n : Nat) {r : RegId} (h : r ≠ .ip) :
    (s.afterFetch n).reg r = s.reg r :=
  State.advanced_reg_ne s n _ h

/-! ## Who changes what -/

/-- Settles O32: of all effects of a step, only that of `HLT` under `HLT_MODE = halt` changes `run`. -/
theorem onlyHltHalts : Obligations.OnlyHltHalts := by
  intro s t hrun h ht
  cases effect_of_step h with
  | stopped hr =>
    rw [hrun] at ht
    cases ht
  | fetchFault hr hf =>
    rw [State.withFault_run, State.advanced_run, hrun] at ht
    cases ht
  | executed hr hf he =>
    obtain hsame | ⟨rfl, hm, -⟩ := he.run_eq
    · rw [hsame, State.afterFetch_run, hrun] at ht
      cases ht
    · exact ⟨hr.2, hf.fetchable.1, hf.opcode, hm⟩

/-- A register other than `ip` that a step changes is one the fetched instruction writes. -/
theorem writesRegister_of_step {s t : State} {r : RegId} (hr : r ≠ .ip) (h : step s = .next t)
    (hne : t.reg r ≠ s.reg r) :
    ∃ i v, Fetched s i ∧ WritesRegister (s.afterFetch i.length) i r v := by
  cases effect_of_step h with
  | stopped => exact absurd rfl hne
  | @fetchFault n notes =>
    exact absurd (State.advanced_reg_ne s n notes hr) hne
  | @executed i _ _ hf he =>
    by_contra hno
    simp only [not_exists, not_and] at hno
    exact hne ((he.reg_eq fun v => hno i v hf).trans (State.afterFetch_reg_ne s _ hr))

/-- Settles O33: by the forms that write a register, whose operands are those fetched. -/
theorem registersChangeOnlyAsDestinations : Obligations.RegistersChangeOnlyAsDestinations := by
  intro s t r hr h hne
  obtain ⟨i, v, hf, hw⟩ := writesRegister_of_step hr h hne
  cases hw with
  | add => exact ⟨hf.fetchable, .inl ⟨rfl, hf.opcode⟩⟩
  | movLitReg ho =>
    cases hf.operands .movLitReg rfl
    exact ⟨hf.fetchable, .inr ⟨.inl hf.opcode, ho⟩⟩
  | movRegReg _ ho =>
    cases hf.operands .movRegReg rfl
    exact ⟨hf.fetchable, .inr ⟨.inr (.inl hf.opcode), ho⟩⟩
  | movMemReg _ ho =>
    cases hf.operands .movMemReg rfl
    exact ⟨hf.fetchable, .inr ⟨.inr (.inr hf.opcode), ho⟩⟩

/-- A byte that a step changes is one of the two the fetched instruction stores to. -/
theorem storesWord_of_step {s t : State} {b : Nat} (h : step s = .next t)
    (hne : t.mem.read b ≠ s.mem.read b) :
    ∃ i a v, Fetched s i ∧ StoresWord (s.afterFetch i.length) i a v ∧
      (b = a.toNat ∨ b = a.toNat + 1) := by
  cases effect_of_step h with
  | stopped => exact absurd rfl hne
  | fetchFault => exact absurd rfl hne
  | @executed i _ _ hf he =>
    by_contra hno
    simp only [not_exists, not_and] at hno
    exact hne (he.read_eq fun a v hw => not_or.mp (hno i a v hf hw))

/-- Settles O34: by the forms that store a word, whose destination is the second operand fetched. -/
theorem memoryChangesOnlyByStores : Obligations.MemoryChangesOnlyByStores := by
  intro s t b h hne
  obtain ⟨i, a, v, hf, hw, hb⟩ := storesWord_of_step h hne
  cases hw with
  | movRegMem =>
    cases hf.operands .movRegMem rfl
    exact ⟨hf.fetchable, .inl hf.opcode, hb⟩
  | movMemMem =>
    cases hf.operands .movMemMem rfl
    exact ⟨hf.fetchable, .inr hf.opcode, hb⟩

/-! ## Where `ip` is -/

/-- A register write moves control exactly when it is to register address 0x0000 (R127). -/
theorem State.setReg_ip_cases (s : State) (r : RegId) (v : Word) :
    (r.offset ≠ 0x0000#16 ∧ (s.setReg r v).regs.ip = s.regs.ip) ∨
      (r.offset = 0x0000#16 ∧ (s.setReg r v).regs.ip = v) := by
  cases r with
  | ip => exact .inr ⟨rfl, rfl⟩
  | acr | r1 | r2 | r3 | r4 => exact .inl ⟨by decide, rfl⟩

theorem State.afterFetch_reg (s : State) (n : Nat) (r : RegId) :
    (s.afterFetch n).reg r = if r = .ip then s.regs.ip + BitVec.ofNat 16 n else s.reg r := by
  by_cases h : r = .ip
  · rw [if_pos h, h]
    rfl
  · rw [if_neg h, State.afterFetch_reg_ne s n h]

/-- Settles O35: by the effects that latch nothing; a register write moves control exactly when its
destination is `ip` (`State.setReg_ip_cases`). -/
theorem controlMovesByFetchOrByWritingIp : Obligations.ControlMovesByFetchOrByWritingIp := by
  intro s t hr h ht
  cases effect_of_step h with
  | stopped hno => exact absurd hr hno
  | fetchFault => cases ht
  | executed _ hf he =>
    cases he with
    | nop => exact .inl ⟨.inl hf.opcode, rfl⟩
    | halted => exact .inl ⟨.inr hf.opcode, rfl⟩
    | undecoded => cases ht
    | raised => cases ht
    | storedWord hu hw =>
      subst hu
      cases hw with
      | movRegMem => exact .inr (.inl ⟨.inr (.inl hf.opcode), rfl⟩)
      | movMemMem => exact .inr (.inl ⟨.inr (.inr hf.opcode), rfl⟩)
    | @wroteRegister _ u r v hu hw =>
      have hip := u.setReg_ip_cases r v
      subst hu
      cases hw with
      | add => exact .inr (.inl ⟨.inl hf.opcode, rfl⟩)
      | movLitReg ho =>
        cases hf.operands .movLitReg rfl
        obtain ⟨h0, hip⟩ | ⟨h0, hip⟩ := hip
        · exact .inr (.inr (.inl ⟨.inl hf.opcode, ho ▸ h0, hip⟩))
        · exact .inr (.inr (.inr (.inl ⟨hf.opcode, ho ▸ h0, hip⟩)))
      | @movRegReg _ _ ra _ ha ho =>
        cases hf.operands .movRegReg rfl
        obtain ⟨h0, hip⟩ | ⟨h0, hip⟩ := hip
        · exact .inr (.inr (.inl ⟨.inr (.inl hf.opcode), ho ▸ h0, hip⟩))
        · exact .inr (.inr (.inr (.inr (.inl ⟨hf.opcode, ho ▸ h0, ra, ha,
            hip.trans (s.afterFetch_reg 5 ra)⟩))))
      | movMemReg _ ho =>
        cases hf.operands .movMemReg rfl
        obtain ⟨h0, hip⟩ | ⟨h0, hip⟩ := hip
        · exact .inr (.inr (.inl ⟨.inr (.inr hf.opcode), ho ▸ h0, hip⟩))
        · exact .inr (.inr (.inr (.inr (.inr ⟨hf.opcode, ho ▸ h0, hip⟩))))

/-! ## Steps that raise -/

theorem State.withFault_fault_inj {s : State} {c c' : FatalCondition} (hs : s.fault = none)
    (h : (s.withFault c).fault = some c') : c = c' := by
  simpa [hs] using h

/-- A decodable instruction that latches a condition has done its source read alone, and an operand
raised the condition. -/
theorem Effect.of_fault {s t : State} {i : Instr} {c : FatalCondition} (h : Effect s i t)
    (hi : i.decodable s.cfg.hltMode = true) (hs : s.fault = none) (ht : t.fault = some c) :
    OperandFault i c ∧ t = (s.sourceRead i).withFault c := by
  have hno : s.fault ≠ some c := by simp [hs]
  cases h with
  | nop | halted => exact absurd ht hno
  | undecoded hm =>
    rw [hm] at hi
    cases hi
  | raised hu _ hc =>
    subst hu
    cases State.withFault_fault_inj hs ht
    exact ⟨hc, rfl⟩
  | wroteRegister hu | storedWord hu =>
    subst hu
    exact absurd ht hno

/-- Settles O36: a condition comes from a fetch or from an operand, whose rows of R215 are the
constructors of `FetchFault` and `OperandFault`; neither has written a destination. -/
theorem faultingStepWritesNoDestination : Obligations.FaultingStepWritesNoDestination := by
  intro s t c hs h ht
  cases effect_of_step h with
  | stopped =>
    rw [hs] at ht
    cases ht
  | @fetchFault n notes _ _ hf =>
    cases State.withFault_fault_inj (s := s.advanced n notes) hs ht
    refine ⟨fun _ => rfl, fun _ hr => State.advanced_reg_ne s n notes hr, rfl, rfl, rfl, ?_⟩
    cases hf with
    | opcode => exact ⟨BitVec.add_zero _, rfl, rfl⟩
    | undecoded => exact ⟨rfl, rfl, rfl⟩
    | operand1 => exact .inl ⟨rfl, rfl⟩
    | operand2 => exact .inr (.inl ⟨rfl, rfl⟩)
  | executed _ hf he =>
    obtain ⟨hc, rfl⟩ := he.of_fault hf.decodable hs ht
    refine ⟨fun _ => rfl, fun _ hr => State.afterFetch_reg_ne s _ hr, rfl, rfl, rfl, ?_⟩
    cases hc with
    | register hlen => simp [hlen]
    | write hlen => simp [hlen]
    | readMemMem =>
      cases hf.operands .movMemMem rfl
      exact .inr (.inr ⟨rfl, rfl⟩)
    | readMemReg =>
      cases hf.operands .movMemReg rfl
      exact .inr (.inr ⟨rfl, rfl⟩)

/-! ## Notifications -/

/-- At most `k` notifications, each to the device of the region that answers for its address. -/
def Answered (regions : List Region) (k : Nat) (notes : List Notification) : Prop :=
  notes.length ≤ k ∧ ∀ n ∈ notes, ∃ r, findRegion regions n.address = some r ∧ n.dev = r.dev

theorem answered_nil (regions : List Region) (k : Nat) : Answered regions k [] :=
  ⟨Nat.zero_le k, nofun⟩

theorem answered_told (regions : List Region) (kind : AccessKind) (a : Nat) (v : Word) :
    Answered regions 1 (told regions kind a v) := by
  cases h : findRegion regions a with
  | none =>
    rw [told_of_findRegion_none h]
    exact answered_nil regions 1
  | some r =>
    rw [told_of_findRegion_some h]
    refine ⟨Nat.le_refl 1, fun n hn => ⟨r, ?_⟩⟩
    cases List.mem_singleton.mp hn
    exact ⟨h, rfl⟩

theorem Answered.append {regions : List Region} {j k : Nat} {l l' : List Notification}
    (h : Answered regions j l) (h' : Answered regions k l') : Answered regions (j + k) (l ++ l') := by
  refine ⟨List.length_append.trans_le (Nat.add_le_add h.1 h'.1), fun n hn => ?_⟩
  obtain hn | hn := List.mem_append.mp hn
  · exact h.2 n hn
  · exact h'.2 n hn

theorem Answered.mono {regions : List Region} {j k : Nat} {l : List Notification}
    (h : Answered regions j l) (hjk : j ≤ k) : Answered regions k l :=
  ⟨h.1.trans hjk, h.2⟩

theorem State.answered_sourceTold (s : State) (i : Instr) : Answered s.regions 1 (s.sourceTold i) := by
  cases i with
  | movMemMem | movMemReg =>
    rw [State.sourceTold]
    split
    · exact answered_told _ _ _ _
    · exact answered_nil _ _
  | _ => exact answered_nil _ _

theorem State.answered_opcodeTold (s : State) : Answered s.regions 1 s.opcodeTold :=
  answered_told _ _ _ _

theorem State.answered_operandTold (s : State) (p : Word) : Answered s.regions 1 (s.operandTold p) :=
  answered_told _ _ _ _

theorem State.answered_fetchTold (s : State) (n : Nat) : Answered s.regions 3 (s.fetchTold n) := by
  rw [State.fetchTold]
  split
  · exact s.answered_opcodeTold.append ((s.answered_operandTold _).append (s.answered_operandTold _))
  · exact s.answered_opcodeTold.append (answered_nil _ 2)

theorem FetchFault.answered {s : State} {n : Nat} {notes : List Notification} {c : FatalCondition}
    (h : FetchFault s n notes c) : Answered s.regions 2 notes := by
  cases h with
  | opcode => exact answered_nil _ _
  | undecoded | operand1 => exact s.answered_opcodeTold.mono (by decide)
  | operand2 => exact s.answered_opcodeTold.append (s.answered_operandTold _)

/-- An instruction tells at most its source read and its store. -/
theorem Effect.answered {s t : State} {i : Instr} (h : Effect s i t) :
    ∃ notes, t.trace = s.trace ++ notes ∧ Answered s.regions 2 notes := by
  cases h with
  | nop | halted | undecoded => exact ⟨[], (List.append_nil _).symm, answered_nil _ _⟩
  | raised hu | wroteRegister hu =>
    subst hu
    exact ⟨_, rfl, (s.answered_sourceTold i).mono (by decide)⟩
  | storedWord hu =>
    subst hu
    exact ⟨_, List.append_assoc _ _ _, (s.answered_sourceTold i).append (answered_told _ _ _ _)⟩

/-- Settles O27: the fetches tell at most three notifications and the instruction two, each made by
`told`, which asks the region found. -/
theorem stepNotifiesOnlyMappedAddresses : Obligations.StepNotifiesOnlyMappedAddresses := by
  intro s t h
  cases effect_of_step h with
  | stopped => exact ⟨[], (List.append_nil _).symm, answered_nil s.regions 5⟩
  | fetchFault _ hf => exact ⟨_, rfl, hf.answered.mono (by decide)⟩
  | @executed i _ _ _ he =>
    obtain ⟨notes, htrace, hnotes⟩ := he.answered
    exact ⟨s.fetchTold i.length ++ notes, htrace.trans (List.append_assoc _ _ _),
      (s.answered_fetchTold i.length).append hnotes⟩

end Sys2Proof.Machine
end

section
/-! PROOFS. What every operation after construction keeps: the parameters, the regions, every stop and
the invariant of memory (spec/10_state.md R33 to R38, spec/60_exceptions.md R218). -/

namespace Sys2Proof.Machine

/-! ## What is kept -/

/-- The parameters and the regions are the same, no stop is undone, and the invariant is not lost. -/
structure State.Keeps (s t : State) : Prop where
  cfg : t.cfg = s.cfg
  regions : t.regions = s.regions
  fault : ∀ c, s.fault = some c → t.fault = some c
  run : s.run = .halted → t.run = .halted
  inv : s.Inv → t.Inv

theorem State.Keeps.refl (s : State) : s.Keeps s :=
  ⟨rfl, rfl, fun _ => id, id, id⟩

theorem State.Keeps.trans {s t u : State} (h : s.Keeps t) (h' : t.Keeps u) : s.Keeps u where
  cfg := h'.cfg.trans h.cfg
  regions := h'.regions.trans h.regions
  fault c hc := h'.fault c (h.fault c hc)
  run hr := h'.run (h.run hr)
  inv hi := h'.inv (h.inv hi)

/-! ### One update of the state -/

theorem State.keeps_withFault (s : State) (c : FatalCondition) : s.Keeps (s.withFault c) :=
  ⟨rfl, rfl, fun c' hc => by simp [hc], id, id⟩

theorem State.keeps_halted (s : State) : s.Keeps { s with run := .halted } :=
  ⟨rfl, rfl, fun _ => id, fun _ => rfl, id⟩

theorem State.keeps_setReg (s : State) (r : RegId) (v : Word) : s.Keeps (s.setReg r v) :=
  ⟨rfl, rfl, fun _ => id, id, id⟩

theorem State.keeps_told (s : State) (l : List Notification) :
    s.Keeps { s with trace := s.trace ++ l } :=
  ⟨rfl, rfl, fun _ => id, id, id⟩

theorem State.keeps_advanced (s : State) (n : Nat) (l : List Notification) :
    s.Keeps (s.advanced n l) :=
  ⟨rfl, rfl, fun _ => id, id, id⟩

theorem State.keeps_byteWritten {s : State} {a : Nat} (ha : a < s.memSize) (b : Byte) :
    s.Keeps (s.byteWritten a b) :=
  ⟨rfl, rfl, fun _ => id, id,
    fun hi => ⟨Memory.wf_write hi.1 a b, Memory.bounded_write hi.2 ha b⟩⟩

theorem State.keeps_wordWritten {s : State} {a : Nat} (ha : a + 1 < s.memSize) (v : Word) :
    s.Keeps (s.wordWritten a v) :=
  ⟨rfl, rfl, fun _ => id, id,
    fun hi => ⟨Memory.wf_writeWord hi.1 a v, Memory.bounded_writeWord hi.2 ha v⟩⟩

/-! ## Steps -/

theorem Effect.keeps {s t : State} {i : Instr} (h : Effect s i t) : s.Keeps t := by
  have hread : s.Keeps (s.sourceRead i) := s.keeps_told (s.sourceTold i)
  cases h with
  | nop => exact .refl s
  | halted => exact s.keeps_halted
  | undecoded => exact s.keeps_withFault _
  | raised hu =>
    subst hu
    exact hread.trans (State.keeps_withFault _ _)
  | wroteRegister hu =>
    subst hu
    exact hread.trans (State.keeps_setReg _ _ _)
  | storedWord hu hw =>
    subst hu
    exact hread.trans (State.keeps_wordWritten (s := s.sourceRead i) hw.inBounds _)

/-- A step keeps what every operation keeps. -/
theorem keeps_of_step {s t : State} (h : step s = .next t) : s.Keeps t := by
  cases effect_of_step h with
  | stopped => exact .refl s
  | @fetchFault n notes => exact (s.keeps_advanced n notes).trans (State.keeps_withFault _ _)
  | @executed i _ _ _ he => exact (s.keeps_advanced i.length _).trans he.keeps

/-- Settles O29: the invariant is part of what a step keeps. -/
theorem stepKeepsTheInvariant : Obligations.StepKeepsTheInvariant :=
  fun _ _ hi h => (keeps_of_step h).inv hi

/-- Settles O31: the rest of what a step keeps. -/
theorem stepKeepsParametersRegionsAndStops : Obligations.StepKeepsParametersRegionsAndStops := by
  intro s t h
  obtain ⟨hcfg, hregions, hfault, hrun, -⟩ := keeps_of_step h
  exact ⟨hcfg, hregions, hfault, hrun⟩

/-! ## The accessors -/

theorem keeps_readReg (id : RegRef) (s : State) : s.Keeps (readReg id s).state := by
  cases h : RegId.ofRef id with
  | some r =>
    rw [readReg_of_ofRef h]
    exact .refl s
  | none =>
    rw [readReg_bad h]
    exact s.keeps_withFault _

theorem keeps_writeReg (id : RegRef) (v : Word) (s : State) : s.Keeps (writeReg id v s).state := by
  cases h : RegId.ofRef id with
  | some r =>
    rw [writeReg_of_ofRef h]
    exact s.keeps_setReg r v
  | none =>
    rw [writeReg_bad h]
    exact s.keeps_withFault _

theorem keeps_getByte (a : Nat) (s : State) : s.Keeps (getByte a s).state := by
  by_cases h : a < s.memSize
  · rw [getByte_inBounds h]
    exact s.keeps_told _
  · rw [getByte_outOfBounds h]
    exact s.keeps_withFault _

theorem keeps_getWord (a : Nat) (s : State) : s.Keeps (getWord a s).state := by
  by_cases h : a + 1 < s.memSize
  · rw [getWord_inBounds h]
    exact s.keeps_told _
  · rw [getWord_outOfBounds h]
    exact s.keeps_withFault _

theorem keeps_setByte (a : Nat) (b : Byte) (s : State) : s.Keeps (setByte a b s).state := by
  by_cases h : a < s.memSize
  · rw [setByte_inBounds h]
    exact State.keeps_byteWritten h b
  · rw [setByte_outOfBounds h]
    exact s.keeps_withFault _

theorem keeps_setWord (a : Nat) (w : Word) (s : State) : s.Keeps (setWord a w s).state := by
  by_cases h : a + 1 < s.memSize
  · rw [setWord_inBounds h]
    exact State.keeps_wordWritten h w
  · rw [setWord_outOfBounds h]
    exact s.keeps_withFault _

/-! ## Calls of the host -/

/-- Every way a call of the host can go: an operation of the setup phase, a step, or an accessor. -/
inductive CallEffect (x : Session) : Session → Prop where
  | mapped (hx : x.phase = .setup) (dev : DeviceId) (first last : Nat) :
    CallEffect x ⟨mapRegion dev first last x.core, .setup⟩
  | loaded (hx : x.phase = .setup) {bytes : List Byte} {start : Nat}
    (hfit : start + bytes.length ≤ x.core.memSize) :
    CallEffect x ⟨{ x.core with mem := x.core.mem.writeBlock start bytes }, .setup⟩
  | stepped {t : State} (h : step x.core = .next t) : CallEffect x ⟨t, .executing⟩
  | accessed {t : State} (h : x.core.Keeps t) : CallEffect x ⟨t, x.phase⟩

theorem CallEffect.of_access {α : Type} {x y : Session} {reply : α → HostReply} {r : Res α}
    {p : HostReply} (hr : x.core.Keeps r.state) (h : x.access reply r = .next (y, p)) :
    CallEffect x y := by
  rw [Session.access_next h]
  exact .accessed hr

theorem effect_of_call {x y : Session} {op : HostOp} {p : HostReply}
    (h : x.call op = .next (y, p)) : CallEffect x y := by
  cases op with
  | map dev first last =>
    obtain ⟨hx, rfl, -⟩ := Session.call_map_eq_next.mp h
    exact .mapped hx dev first last
  | loadBlock bytes start =>
    obtain ⟨hx, hfit, rfl, -⟩ := Session.call_loadBlock_eq_next.mp h
    exact .loaded hx hfit
  | step =>
    obtain ⟨t, ht, rfl, -⟩ := Session.call_step_eq_next.mp h
    exact .stepped ht
  | readReg id => exact .of_access (keeps_readReg id x.core) h
  | writeReg id v => exact .of_access (keeps_writeReg id v x.core) h
  | getByte a => exact .of_access (keeps_getByte a x.core) h
  | getWord a => exact .of_access (keeps_getWord a x.core) h
  | setByte a b => exact .of_access (keeps_setByte a b x.core) h
  | setWord a w => exact .of_access (keeps_setWord a w x.core) h

/-- What every call keeps, a sequence of calls keeps. -/
theorem Session.calls_induction {P : Session → Prop}
    (hcall : ∀ x y, P x → CallEffect x y → P y) {x y : Session} {ops : List HostOp} (hx : P x)
    (h : x.calls ops = .next y) : P y := by
  induction ops generalizing x with
  | nil =>
    cases h
    exact hx
  | cons op rest ih =>
    unfold Session.calls at h
    split at h
    · next z p hz => exact ih (hcall x z hx (effect_of_call hz)) h
    · cases h
    · cases h

/-! ## Sequences of calls -/

/-- In the executing phase a call keeps the phase and what every operation keeps. -/
theorem CallEffect.keeps_of_executing {x y : Session} (h : CallEffect x y)
    (hx : x.phase = .executing) : y.phase = .executing ∧ x.core.Keeps y.core := by
  have hsetup : x.phase ≠ .setup := by simp [hx]
  cases h with
  | mapped hx' => exact absurd hx' hsetup
  | loaded hx' => exact absurd hx' hsetup
  | stepped ht => exact ⟨rfl, keeps_of_step ht⟩
  | accessed hk => exact ⟨hx, hk⟩

/-- Settles O40: by induction over the calls, with the phase in the induction's predicate, since it is
what shuts out `map` and `loadBlock`. -/
theorem noHostOperationUndoesAStopOrAMapping : Obligations.NoHostOperationUndoesAStopOrAMapping := by
  intro x y ops hx h
  obtain ⟨hy, hcfg, hregions, hfault, hrun, -⟩ :
      y.phase = .executing ∧ x.core.Keeps y.core := by
    refine Session.calls_induction (P := fun z => z.phase = .executing ∧ x.core.Keeps z.core)
      (fun z w hz hw => ?_) ⟨hx, .refl x.core⟩ h
    obtain ⟨hphase, hkeeps⟩ := hw.keeps_of_executing hz.1
    exact ⟨hphase, hz.2.trans hkeeps⟩
  exact ⟨hy, hregions, hcfg, hfault, hrun⟩

/-- A call in either phase keeps the parameters and the invariant. -/
theorem CallEffect.keeps_inv {x y : Session} (h : CallEffect x y) :
    y.core.cfg = x.core.cfg ∧ (x.core.Inv → y.core.Inv) := by
  cases h with
  | mapped => exact ⟨rfl, id⟩
  | loaded _ hfit =>
    exact ⟨rfl, fun hi => ⟨Memory.wf_writeBlock hi.1 _ _, Memory.bounded_writeBlock hi.2 _ hfit⟩⟩
  | stepped ht => exact ⟨(keeps_of_step ht).cfg, (keeps_of_step ht).inv⟩
  | accessed hk => exact ⟨hk.cfg, hk.inv⟩

/-- Settles O41: construction has the invariant (O30), and every call keeps it and the parameters. -/
theorem reachableCoresHaveTheInvariant : Obligations.ReachableCoresHaveTheInvariant := by
  intro n m x y ops hx h
  refine Session.calls_induction (P := fun z => z.core.Inv ∧ z.core.memSize = n)
    (fun z w hz hw => ?_) ?_ h
  · obtain ⟨hcfg, hinv⟩ := hw.keeps_inv
    refine ⟨hinv hz.1, ?_⟩
    rw [← hz.2, State.memSize, hcfg, State.memSize]
  · by_cases hn : 1 ≤ n ∧ n ≤ 65536
    · rw [Session.construct_of_size hn] at hx
      cases hx
      exact ⟨resetHasTheInvariant.2 _ _ _ Memory.wf_nil nofun, rfl⟩
    · rw [Session.construct_of_bad_size hn] at hx
      cases hx

end Sys2Proof.Machine
end

section
/-! PROOFS. Devices are passive (spec/20_memory.md R67, R68): every action of the core, from two states
that differ only in their regions and their trace, answers the same value or raises on both sides, and
leaves such states. -/

namespace Sys2Proof.Machine

/-! ## Actions that agree -/

/-- Two ends of an action that no device can tell apart: the same value or both raised, with states
that differ only in their regions and their trace. -/
inductive Res.Agree {α : Type} : Res α → Res α → Prop where
  | done {s t : State} (v : α) (h : SameButDevices s t) : Agree (.done v s) (.done v t)
  | raised {s t : State} (h : SameButDevices s t) : Agree (.raised s) (.raised t)

theorem Res.Agree.andThen {α β : Type} {q r : Res α} {k : α → State → Res β} (h : q.Agree r)
    (hk : ∀ v s t, SameButDevices s t → (k v s).Agree (k v t)) : (q.andThen k).Agree (r.andThen k) := by
  cases h with
  | done v h => exact hk v _ _ h
  | raised h => exact .raised h

theorem Res.Agree.of_outcome {α : Type} {q r : Res α} {s t : State} (h : q.Agree r)
    (hs : q.outcome = .next s) (ht : r.outcome = .next t) : SameButDevices s t := by
  cases hs
  cases ht
  cases h with
  | done _ h => exact h
  | raised h => exact h

section
variable {s t : State}

theorem SameButDevices.exists_eq (h : SameButDevices s t) :
    ∃ regions trace, t = { s with regions := regions, trace := trace } := by
  obtain ⟨hcfg, hregs, hmem, hrun, hfault⟩ := h
  refine ⟨t.regions, t.trace, ?_⟩
  rw [hcfg, hregs, hmem, hrun, hfault]

theorem agree_raise {α : Type} (h : SameButDevices s t) (c : FatalCondition) :
    (raise c s : Res α).Agree (raise c t) := by
  obtain ⟨regions, trace, rfl⟩ := h.exists_eq
  rw [raise_eq, raise_eq]
  exact .raised ⟨rfl, rfl, rfl, rfl, rfl⟩

/-! ### The Register File and the bus -/

theorem agree_done_setReg {α : Type} (h : SameButDevices s t) (v : α) (r : RegId) (w : Word) :
    (Res.done v (s.setReg r w)).Agree (.done v (t.setReg r w)) := by
  obtain ⟨regions, trace, rfl⟩ := h.exists_eq
  exact .done v ⟨rfl, rfl, rfl, rfl, rfl⟩

theorem agree_readReg (h : SameButDevices s t) (id : RegRef) :
    (readReg id s).Agree (readReg id t) := by
  cases hid : RegId.ofRef id with
  | some r =>
    have ⟨_, hregs, _⟩ := h
    rw [readReg_of_ofRef hid, readReg_of_ofRef hid, State.reg, State.reg, hregs]
    exact .done _ h
  | none =>
    rw [readReg, readReg, hid]
    exact agree_raise h _

theorem agree_writeReg (h : SameButDevices s t) (id : RegRef) (v : Word) :
    (writeReg id v s).Agree (writeReg id v t) := by
  cases hid : RegId.ofRef id with
  | some r =>
    rw [writeReg_of_ofRef hid, writeReg_of_ofRef hid]
    exact agree_done_setReg h () r v
  | none =>
    rw [writeReg, writeReg, hid]
    exact agree_raise h _

theorem agree_getByte (h : SameButDevices s t) (a : Nat) : (getByte a s).Agree (getByte a t) := by
  obtain ⟨regions, trace, rfl⟩ := h.exists_eq
  by_cases ha : a < s.memSize
  · rw [getByte_inBounds ha, getByte_inBounds (by exact ha)]
    exact .done _ ⟨rfl, rfl, rfl, rfl, rfl⟩
  · rw [getByte_outOfBounds ha, getByte_outOfBounds (by exact ha)]
    exact .raised ⟨rfl, rfl, rfl, rfl, rfl⟩

theorem agree_getWord (h : SameButDevices s t) (a : Nat) : (getWord a s).Agree (getWord a t) := by
  obtain ⟨regions, trace, rfl⟩ := h.exists_eq
  by_cases ha : a + 1 < s.memSize
  · rw [getWord_inBounds ha, getWord_inBounds (by exact ha)]
    exact .done _ ⟨rfl, rfl, rfl, rfl, rfl⟩
  · rw [getWord_outOfBounds ha, getWord_outOfBounds (by exact ha)]
    exact .raised ⟨rfl, rfl, rfl, rfl, rfl⟩

theorem agree_setWord (h : SameButDevices s t) (a : Nat) (v : Word) :
    (setWord a v s).Agree (setWord a v t) := by
  obtain ⟨regions, trace, rfl⟩ := h.exists_eq
  by_cases ha : a + 1 < s.memSize
  · rw [setWord_inBounds ha, setWord_inBounds (by exact ha)]
    exact .done _ ⟨rfl, rfl, rfl, rfl, rfl⟩
  · rw [setWord_outOfBounds ha, setWord_outOfBounds (by exact ha)]
    exact .raised ⟨rfl, rfl, rfl, rfl, rfl⟩

/-! ### The fetches -/

theorem agree_fetchByte (h : SameButDevices s t) : (fetchByte s).Agree (fetchByte t) := by
  have ⟨_, hregs, _⟩ := h
  rw [fetchByte, fetchByte, hregs]
  exact (agree_getByte h _).andThen fun b _ _ h' => agree_done_setReg h' b _ _

theorem agree_fetchWord (h : SameButDevices s t) : (fetchWord s).Agree (fetchWord t) := by
  have ⟨_, hregs, _⟩ := h
  rw [fetchWord, fetchWord, hregs]
  exact (agree_getWord h _).andThen fun w _ _ h' => agree_done_setReg h' w _ _

theorem agree_fetchInstr (h : SameButDevices s t) : (fetchInstr s).Agree (fetchInstr t) := by
  refine (agree_fetchByte h).andThen fun b s1 t1 h1 => ?_
  have ⟨hcfg, hregs, _⟩ := h1
  rw [hcfg, hregs]
  cases Opcode.ofByte t1.cfg.hltMode b with
  | none => exact agree_raise h1 _
  | some op =>
    cases op with
    | z op => exact .done _ h1
    | w2 op =>
      exact (agree_fetchWord h1).andThen fun op1 _ _ h2 =>
        (agree_fetchWord h2).andThen fun op2 _ _ h3 => .done _ h3

/-! ### The instructions -/

theorem agree_readSource (h : SameButDevices s t) (src : Source) :
    (readSource src s).Agree (readSource src t) := by
  cases src with
  | literal v => exact .done v h
  | register o => exact agree_readReg h _
  | memory a => exact agree_getWord h _

theorem agree_writeDestination (h : SameButDevices s t) (dst : Destination) (v : Word) :
    (writeDestination dst v s).Agree (writeDestination dst v t) := by
  cases dst with
  | register o => exact agree_writeReg h _ v
  | memory a => exact agree_setWord h _ v

theorem agree_move (h : SameButDevices s t) (src : Source) (dst : Destination) :
    (move src dst s).Agree (move src dst t) :=
  (agree_readSource h src).andThen fun v _ _ h' => agree_writeDestination h' dst v

theorem sameButDevices_of_execHlt {s' t' : State} (h : SameButDevices s t)
    (hs : exec .hlt s = .next s') (ht : exec .hlt t = .next t') : SameButDevices s' t' := by
  obtain ⟨regions, trace, rfl⟩ := h.exists_eq
  rw [exec_hlt] at hs ht
  cases hs
  cases ht
  cases hm : s.cfg.hltMode <;> exact ⟨rfl, rfl, rfl, rfl, rfl⟩

theorem sameButDevices_of_exec {i : Instr} {s' t' : State} (h : SameButDevices s t)
    (hs : exec i s = .next s') (ht : exec i t = .next t') : SameButDevices s' t' := by
  cases i with
  | nop =>
    cases hs
    cases ht
    exact h
  | hlt => exact sameButDevices_of_execHlt h hs ht
  | add reg1 reg2 =>
    refine Res.Agree.of_outcome ?_ hs ht
    refine (agree_readReg h _).andThen fun v1 _ _ h1 => (agree_readReg h1 _).andThen fun v2 _ _ h2 => ?_
    exact agree_done_setReg h2 () .acr (sum16 v1 v2)
  | movLitReg | movRegReg | movRegMem | movMemMem | movMemReg =>
    exact (agree_move h _ _).of_outcome hs ht

end

/-- Settles O28: the fetches agree, and so does the instruction they answer; a stopped core is stopped
on both sides. -/
theorem devicesCannotInfluenceTheCore : Obligations.DevicesCannotInfluenceTheCore := by
  intro s t s' t' h hs ht
  have hiff : s.running ↔ t.running := by
    obtain ⟨-, -, -, hrun, hfault⟩ := h
    rw [State.running, hrun, hfault]
  by_cases hr : s.running
  · have hfetch := agree_fetchInstr h
    rw [step_of_running hr] at hs
    rw [step_of_running (hiff.mp hr)] at ht
    generalize fetchInstr s = q at hs hfetch
    generalize fetchInstr t = r at ht hfetch
    cases hfetch with
    | done i h' => exact sameButDevices_of_exec h' hs ht
    | raised h' =>
      cases hs
      cases ht
      exact h'
  · rw [step_of_not_running hr] at hs
    rw [step_of_not_running (mt hiff.mpr hr)] at ht
    cases hs
    cases ht
    exact h

end Sys2Proof.Machine
end
